-- ==== Sys2Proof/Word.lean ====
section
/-! DEFINITION. The word type of the LS-8 core. -/

namespace Sys2Proof

/-- The value of a register, a memory byte, an opcode or an operand: 8 bits, unsigned (00_scope.md R5;
10_state.md R10, `XLEN` = 8; log entry 11). -/
abbrev Byte := BitVec 8

end Sys2Proof
end

