-- ==== Sys2Proof/Config.lean ====
section
/-! DEFINITION. What is fixed when a machine is constructed: the parameters of 00_scope.md R2.

The default values of the parameters stand in Sys2Proof/Decode.lean, beside the encoding tables. -/

namespace Sys2Proof

/-- The names of the 17 rows of spec/opcode_table.json: 14 of 30_encoding.md R57 and, with the option
`EXT_ALU`, the 3 of R64. -/
inductive Mnemonic where
  | ldi | prn | hlt
  | mul | add | cmp
  | push | pop
  | call | ret | jmp | jeq | jne | jgt
  | sub | div | mod
  deriving DecidableEq, Repr

/-- The parameter `OPC`: the opcode byte of each mnemonic (00_scope.md R2, 30_encoding.md R56). -/
structure OpcodeMap where
  ldi : Byte
  prn : Byte
  hlt : Byte
  mul : Byte
  add : Byte
  cmp : Byte
  push : Byte
  pop : Byte
  call : Byte
  ret : Byte
  jmp : Byte
  jeq : Byte
  jne : Byte
  jgt : Byte
  sub : Byte
  div : Byte
  mod : Byte
  deriving DecidableEq, Repr

/-- The parameters of a machine (00_scope.md R2).  `XLEN` is the width of `Byte`; `PCLEN` is the
natural-number reading that R2 allows (log entry 9); `CLOCK_HZ` is used by no rule (log entry 17). -/
structure Params where
  /-- `MEM_SIZE`, the number of bytes of memory. -/
  memSize : Nat
  /-- `SP_INIT`, the reset value of R7. -/
  spInit : Byte
  /-- `OPC`, the opcode byte values. -/
  opc : OpcodeMap
  /-- `EXT_ALU`, whether SUB, DIV and MOD have table entries. -/
  extAlu : Bool
  deriving DecidableEq, Repr

end Sys2Proof
end

