-- ==== Sys2Proof/Syntax.lean ====
section
/-! DEFINITION. The instructions, one constructor per row of spec/opcode_table.json.

An operand is the 8-bit value that follows the opcode byte (30_encoding.md R50, R53).  Whether a
register-index operand names a register is a property of the instruction (WellFormed.lean) and is
checked by the handler (40_cycle.md R77). -/

namespace Sys2Proof

/-- An instruction with its operand bytes.  `regA` and `regB` are operand bytes used as register
indices, `imm` an operand byte used as an immediate. -/
inductive Instr where
  /-- LDI regA, imm (41_load_print_halt.md R90). -/
  | ldi (regA imm : Byte)
  /-- PRN regA (R91). -/
  | prn (regA : Byte)
  /-- HLT (R92). -/
  | hlt
  /-- MUL regA, regB (42_alu.md R102). -/
  | mul (regA regB : Byte)
  /-- ADD regA, regB (R103). -/
  | add (regA regB : Byte)
  /-- CMP regA, regB (R104). -/
  | cmp (regA regB : Byte)
  /-- PUSH regA (43_stack.md R121). -/
  | push (regA : Byte)
  /-- POP regA (R122). -/
  | pop (regA : Byte)
  /-- CALL regA (44_control_transfer.md R131). -/
  | call (regA : Byte)
  /-- RET (R132). -/
  | ret
  /-- JMP regA (R133). -/
  | jmp (regA : Byte)
  /-- JEQ regA (R137). -/
  | jeq (regA : Byte)
  /-- JNE regA (R138). -/
  | jne (regA : Byte)
  /-- JGT regA (R139). -/
  | jgt (regA : Byte)
  /-- SUB regA, regB, with `EXT_ALU` (42_alu.md R108). -/
  | sub (regA regB : Byte)
  /-- DIV regA, regB, with `EXT_ALU` (R109). -/
  | div (regA regB : Byte)
  /-- MOD regA, regB, with `EXT_ALU` (R110). -/
  | mod (regA regB : Byte)
  deriving DecidableEq, Repr

/-- The mnemonic of an instruction. -/
def Instr.mnemonic : Instr → Mnemonic
  | .ldi _ _ => .ldi
  | .prn _ => .prn
  | .hlt => .hlt
  | .mul _ _ => .mul
  | .add _ _ => .add
  | .cmp _ _ => .cmp
  | .push _ => .push
  | .pop _ => .pop
  | .call _ => .call
  | .ret => .ret
  | .jmp _ => .jmp
  | .jeq _ => .jeq
  | .jne _ => .jne
  | .jgt _ => .jgt
  | .sub _ _ => .sub
  | .div _ _ => .div
  | .mod _ _ => .mod

end Sys2Proof
end

