-- ==== Sys2Proof/WellFormed.lean ====
section
/-! DEFINITION. Which instructions are well formed: every operand byte used as a register index is
0 to 7 (30_encoding.md R54).  LDI's immediate is never checked (R54, R55). -/

namespace Sys2Proof

/-- The operand byte names a register. -/
def isRegIndex (o : Byte) : Bool := decide (o.toNat ≤ 7)

/-- The operand bytes that an instruction uses as register indices, operand A before operand B
(30_encoding.md R53). -/
def Instr.registerOperands : Instr → List Byte
  | .ldi a _ => [a]
  | .prn a => [a]
  | .hlt => []
  | .mul a b => [a, b]
  | .add a b => [a, b]
  | .cmp a b => [a, b]
  | .push a => [a]
  | .pop a => [a]
  | .call a => [a]
  | .ret => []
  | .jmp a => [a]
  | .jeq a => [a]
  | .jne a => [a]
  | .jgt a => [a]
  | .sub a b => [a, b]
  | .div a b => [a, b]
  | .mod a b => [a, b]

/-- Every operand used as a register index is 0 to 7. -/
def Instr.wellFormed (i : Instr) : Bool := i.registerOperands.all isRegIndex

end Sys2Proof
end

