-- ==== Sys2Proof/Decode.lean ====
section
/-! DEFINITION. The opcode map, the fields of the opcode byte, the decoder and the encoder
(30_encoding.md; 40_cycle.md R74, R75).

The default parameter values stand here, with the tables they belong to. -/

namespace Sys2Proof

/-! ### The fields of the opcode byte -/

/-- `nops(op) = op[7:6]`, the operand count encoded in the opcode byte: `(opcode >> 6) & 0b11`
(30_encoding.md R51, 00_scope.md R4). -/
def nops (op : Byte) : Nat := ((op >>> 6) &&& 0b11#8).toNat

/-- Bit 5 of the opcode byte, "is ALU operation"; informational, no rule of the machine reads it
(30_encoding.md R51, 40_cycle.md R76). -/
def aluBit (op : Byte) : Bool := op.getLsbD 5

/-! ### The mnemonics -/

/-- Every mnemonic, in the order of the tables of 30_encoding.md R57 and R64. -/
def Mnemonic.all : List Mnemonic :=
  [.ldi, .prn, .hlt, .mul, .add, .cmp, .push, .pop, .call, .ret, .jmp, .jeq, .jne, .jgt,
   .sub, .div, .mod]

/-- The mnemonics of the option `EXT_ALU` (30_encoding.md R64, 42_alu.md R107). -/
def Mnemonic.isOption : Mnemonic → Bool
  | .sub | .div | .mod => true
  | .ldi | .prn | .hlt | .mul | .add | .cmp | .push | .pop | .call | .ret | .jmp | .jeq | .jne
  | .jgt => false

/-- The operand count of each mnemonic: formats F0, F1, F2 of 30_encoding.md R50. -/
def Mnemonic.operandCount : Mnemonic → Nat
  | .hlt | .ret => 0
  | .prn | .push | .pop | .call | .jmp | .jeq | .jne | .jgt => 1
  | .ldi | .mul | .add | .cmp | .sub | .div | .mod => 2

/-- The instructions that the ALU performs (30_encoding.md R56 item 3). -/
def Mnemonic.usesAlu : Mnemonic → Bool
  | .mul | .add | .cmp | .sub | .div | .mod => true
  | .ldi | .prn | .hlt | .push | .pop | .call | .ret | .jmp | .jeq | .jne | .jgt => false

/-- The explicit control-transfer opcodes, for which the advance step does not run
(40_cycle.md R78, 44_control_transfer.md R130). -/
def Mnemonic.isControlTransfer : Mnemonic → Bool
  | .call | .ret | .jmp | .jeq | .jne | .jgt => true
  | .ldi | .prn | .hlt | .mul | .add | .cmp | .push | .pop | .sub | .div | .mod => false

/-! ### The parameters -/

/-- The byte of a mnemonic under the map `OPC`. -/
def OpcodeMap.byte (o : OpcodeMap) : Mnemonic → Byte
  | .ldi => o.ldi
  | .prn => o.prn
  | .hlt => o.hlt
  | .mul => o.mul
  | .add => o.add
  | .cmp => o.cmp
  | .push => o.push
  | .pop => o.pop
  | .call => o.call
  | .ret => o.ret
  | .jmp => o.jmp
  | .jeq => o.jeq
  | .jne => o.jne
  | .jgt => o.jgt
  | .sub => o.sub
  | .div => o.div
  | .mod => o.mod

/-- The default `OPC` of 30_encoding.md R57 and R64 (PRESUMED: the spec marks the values as general
knowledge, D6 and D15; log entry 2). -/
def OpcodeMap.default : OpcodeMap where
  ldi := 0b10011001#8
  prn := 0b01000011#8
  hlt := 0b00000001#8
  mul := 0b10101010#8
  add := 0b10101000#8
  cmp := 0b10100000#8
  push := 0b01001101#8
  pop := 0b01001100#8
  call := 0b01001000#8
  ret := 0b00001001#8
  jmp := 0b01010000#8
  jeq := 0b01010001#8
  jne := 0b01010010#8
  jgt := 0b01010100#8
  sub := 0b10101001#8
  div := 0b10101011#8
  mod := 0b10101100#8

/-- The default parameter values of 00_scope.md R2. -/
def Params.default : Params where
  memSize := 256
  spInit := 0xF4#8
  opc := OpcodeMap.default
  extAlu := false

/-- The opcode byte of a mnemonic on a machine with these parameters. -/
def Params.opcode (p : Params) (m : Mnemonic) : Byte := p.opc.byte m

/-- The mnemonic has an entry in the dispatch table (30_encoding.md R57, R64). -/
def Params.enabled (p : Params) (m : Mnemonic) : Bool := p.extAlu || !m.isOption

/-- The allowed parameter values (00_scope.md R2): a memory of 1 to 256 bytes and an opcode map that
satisfies 30_encoding.md R56: injective, bits 7:6 the operand count, bit 5 the ALU mark.  Only the
mnemonics that have a table entry are constrained (log entry 20). -/
def Params.Valid (p : Params) : Prop :=
  (1 ≤ p.memSize ∧ p.memSize ≤ 256) ∧
  (∀ m n, p.enabled m → p.enabled n → p.opcode m = p.opcode n → m = n) ∧
  (∀ m, p.enabled m → nops (p.opcode m) = m.operandCount) ∧
  (∀ m, p.enabled m → aluBit (p.opcode m) = m.usesAlu)

/-! ### Decoding -/

/-- Why the decoder refuses a byte. -/
inductive DecodeError where
  /-- The opcode byte has no table entry (30_encoding.md R58); `step` takes the fatal error
  UnknownOpcode for it. -/
  | unknownOpcode (opcode : Byte)
  deriving DecidableEq, Repr

/-- The dispatch table: an exact-match lookup of the opcode byte (30_encoding.md R59,
40_cycle.md R74). -/
def dispatch (p : Params) (op : Byte) : Option Mnemonic :=
  Mnemonic.all.find? fun m => p.enabled m && decide (p.opcode m = op)

/-- The instruction with this mnemonic and the operand bytes it uses; the bytes that are not part of
the instruction are ignored (30_encoding.md R60, 40_cycle.md R75). -/
def instrOf (a b : Byte) : Mnemonic → Instr
  | .ldi => .ldi a b
  | .prn => .prn a
  | .hlt => .hlt
  | .mul => .mul a b
  | .add => .add a b
  | .cmp => .cmp a b
  | .push => .push a
  | .pop => .pop a
  | .call => .call a
  | .ret => .ret
  | .jmp => .jmp a
  | .jeq => .jeq a
  | .jne => .jne a
  | .jgt => .jgt a
  | .sub => .sub a b
  | .div => .div a b
  | .mod => .mod a b

/-- The decoder: the latched opcode byte and operand bytes to an instruction, or a rejection by name. -/
def decode (p : Params) (op a b : Byte) : Except DecodeError Instr :=
  match dispatch p op with
  | some m => .ok (instrOf a b m)
  | none => .error (.unknownOpcode op)

/-! ### Encoding -/

/-- The operand bytes of an instruction in the order of memory (30_encoding.md R50, R61). -/
def Instr.operandBytes : Instr → List Byte
  | .ldi a b => [a, b]
  | .prn a => [a]
  | .hlt => []
  | .mul a b => [a, b]
  | .add a b => [a, b]
  | .cmp a b => [a, b]
  | .push a => [a]
  | .pop a => [a]
  | .call a => [a]
  | .ret => []
  | .jmp a => [a]
  | .jeq a => [a]
  | .jne a => [a]
  | .jgt a => [a]
  | .sub a b => [a, b]
  | .div a b => [a, b]
  | .mod a b => [a, b]

/-- The encoder: the 1, 2 or 3 bytes of an instruction, the opcode byte first (30_encoding.md R50,
R57, R64). -/
def encode (p : Params) (i : Instr) : List Byte := p.opcode i.mnemonic :: i.operandBytes

/-! ### The words of spec/opcode_table.json -/

/-- Byte `k` of a table word of `nbits` bits; the bits at and above `nbits` are 0. -/
def tableByte (nbits w k : Nat) : Byte := BitVec.ofNat 8 ((w % 2 ^ nbits) >>> (8 * k))

/-- The instruction the decoder reads from a word numbered as spec/opcode_table.json numbers it.  The
table has the rows of `EXT_ALU`, so the decoder is asked with the option on (log entry 3). -/
def decodeTableWord (nbits w : Nat) : Option Instr :=
  (decode { Params.default with extAlu := true }
    (tableByte nbits w 0) (tableByte nbits w 1) (tableByte nbits w 2)).toOption

end Sys2Proof
end

