-- ==== Sys2Proof/Machine/State.lean ====
section
/-! DEFINITION. The state of the machine as plain data, and reset (10_state.md). -/

namespace Sys2Proof.Machine

open Sys2Proof

/-- The names of the eight general registers (10_state.md R10); `r7` is the stack pointer (R12). -/
inductive Reg where
  | r0 | r1 | r2 | r3 | r4 | r5 | r6 | r7
  deriving DecidableEq, Repr

/-- The register file: eight 8-bit registers, none hardwired (10_state.md R10, R11). -/
structure RegFile where
  r0 : Byte
  r1 : Byte
  r2 : Byte
  r3 : Byte
  r4 : Byte
  r5 : Byte
  r6 : Byte
  r7 : Byte
  deriving DecidableEq, Repr

/-- The flags register FL: the result of the last comparison; `none` is the cleared value after reset
(10_state.md R16, R18). -/
inductive Flags where
  | none | equal | greater | less
  deriving DecidableEq, Repr

/-- The run latch (10_state.md R19). -/
inductive Status where
  | run | halt | fault
  deriving DecidableEq, Repr

/-- The two fatal errors with their payloads (60_exceptions.md R150 to R153). -/
inductive FatalError where
  | unknownOpcode (pc : Nat) (opcode : Byte)
  | outOfBoundsAccess (address : Nat)
  deriving DecidableEq, Repr

/-- Memory: the cells whose byte differs from what an unlisted address reads as, addresses strictly
rising (20_memory.md R30; the canonical form is `Memory.wf`). -/
abbrev Memory := List Host.Cell

/-- The three bytes latched by fetch; they live within one cycle (10_state.md R23). -/
structure Latch where
  op : Byte
  a : Byte
  b : Byte
  deriving DecidableEq, Repr

/-- The whole state of the machine (10_state.md, opening paragraph), with the parameters it was
constructed with (log entry 1). -/
structure State where
  /-- R0 to R7. -/
  regs : RegFile
  /-- The program counter, an index into memory that never wraps (R14, R15; log entry 9). -/
  pc : Nat
  /-- The flags register FL (R16). -/
  fl : Flags
  /-- The run latch (R19). -/
  status : Status
  /-- The error record (R20). -/
  err : Option FatalError
  /-- The memory (R21). -/
  mem : Memory
  /-- The output channel, oldest entry first (R22). -/
  out : List Byte
  /-- The parameters, fixed for a run (R27; 00_scope.md R2). -/
  params : Params
  deriving DecidableEq, Repr

/-- The faults that stop the model.  There are none: the two fatal errors of this machine have an
entry that the spec describes (60_exceptions.md R154), so a cycle that meets one answers a next state
with `status` = FAULT (log entry 4; safe). -/
inductive Fault where
  deriving DecidableEq, Repr

/-- The situations to which the spec gives no meaning (60_exceptions.md R158). -/
inductive Refusal where
  /-- Raised by an arm of `exec` whose instruction has no meaning yet; no arm is left so. Safe. -/
  | notModelled (mnemonic : String)
  /-- Raised by every instruction with an operand byte above 7 used as a register index
  (30_encoding.md R54; log entry 5). Safe: the model stops where the hardware may go on. -/
  | invalidRegisterIndex
  /-- Raised by DIV and MOD with a zero divisor (42_alu.md R115; log entry 5). Safe: the model stops
  where the hardware may go on. -/
  | divideByZero
  deriving DecidableEq, Repr

/-- What one instruction or one step answers. -/
abbrev Result := Host.Outcome State Fault Refusal

/-- The state after reset of a machine constructed with parameters `p` (10_state.md R26,
70_reset_and_hazards.md R180). -/
def State.resetWith (p : Params) : State where
  regs := { r0 := 0, r1 := 0, r2 := 0, r3 := 0, r4 := 0, r5 := 0, r6 := 0, r7 := p.spInit }
  pc := 0
  fl := .none
  status := .run
  err := .none
  mem := []
  out := []
  params := p

/-- The state after reset of the default machine (10_state.md R26, 00_scope.md R2). -/
def State.reset : State := State.resetWith Params.default

end Sys2Proof.Machine
end

