-- ==== Sys2Proof/Machine/Ops.lean ====
section
/-! DEFINITION. The pseudocode primitives of 00_scope.md R6 over registers, memory, PC and the output
channel, and the entry of a fatal error (60_exceptions.md R154).  There is no return from a fatal
error (R159). -/

namespace Sys2Proof.Machine

open Sys2Proof

/-- `trunc8(v) = v mod 256` for any integer v (00_scope.md R5, 42_alu.md R111). -/
def trunc8 (v : Int) : Byte := BitVec.ofInt 8 v

/-! ### Registers -/

/-- `x[i]`: read a register. -/
def RegFile.get (f : RegFile) : Reg → Byte
  | .r0 => f.r0
  | .r1 => f.r1
  | .r2 => f.r2
  | .r3 => f.r3
  | .r4 => f.r4
  | .r5 => f.r5
  | .r6 => f.r6
  | .r7 => f.r7

/-- `x[i] <- v`: write a register. -/
def RegFile.set (f : RegFile) (r : Reg) (v : Byte) : RegFile :=
  match r with
  | .r0 => { f with r0 := v }
  | .r1 => { f with r1 := v }
  | .r2 => { f with r2 := v }
  | .r3 => { f with r3 := v }
  | .r4 => { f with r4 := v }
  | .r5 => { f with r5 := v }
  | .r6 => { f with r6 := v }
  | .r7 => { f with r7 := v }

/-- The register that is the stack pointer (10_state.md R12). -/
def spReg : Reg := .r7

/-- Read a register of the machine. -/
def State.reg (s : State) (r : Reg) : Byte := s.regs.get r

/-- Write a register of the machine. -/
def State.setReg (s : State) (r : Reg) (v : Byte) : State := { s with regs := s.regs.set r v }

/-- `sp`, another name for `x[7]`. -/
def State.sp (s : State) : Byte := s.reg spReg

/-- `sp <- trunc8(sp - 1)`, before a push (10_state.md R12, R13). -/
def State.decSp (s : State) : State := s.setReg spReg (trunc8 (s.sp.toNat - 1))

/-- `sp <- trunc8(sp + 1)`, after a pop (10_state.md R12, R13). -/
def State.incSp (s : State) : State := s.setReg spReg (trunc8 (s.sp.toNat + 1))

/-! ### PC, the run latch and the output channel -/

/-- `pc <- target`. -/
def State.setPc (s : State) (target : Nat) : State := { s with pc := target }

/-- The advance `pc <- p + 1 + nops(op)` of the instruction `m` (40_cycle.md R78); no wrapping
(10_state.md R15). -/
def State.advance (s : State) (m : Mnemonic) : State :=
  s.setPc (s.pc + 1 + nops (s.params.opcode m))

/-- `status <- v`. -/
def State.setStatus (s : State) (v : Status) : State := { s with status := v }

/-- `Emit(v)`: append v to the output channel (10_state.md R22). -/
def State.emit (s : State) (v : Byte) : State := { s with out := s.out ++ [v] }

/-! ### Memory -/

/-- What an address that is not listed reads as: the zero that reset leaves (10_state.md R21, R26). -/
def Memory.unlisted : Byte := 0#8

/-- The canonical form: addresses strictly rising and no cell equal to what an unlisted address reads
as, so that equal memories are equal data. -/
abbrev Memory.wf (m : Memory) : Prop :=
  m.Pairwise (fun c d => c.1 < d.1) ∧ ∀ c ∈ m, c.2 ≠ Memory.unlisted

/-- The byte at an address. -/
def Memory.read : Memory → Nat → Byte
  | [], _ => Memory.unlisted
  | (k, w) :: rest, a => if a = k then w else Memory.read rest a

/-- The memory with one cell put before `rest`, left out where it says what an unlisted address says. -/
def Memory.cons (a : Nat) (v : Byte) (rest : Memory) : Memory :=
  if v = Memory.unlisted then rest else (a, v) :: rest

/-- The memory with the byte at one address replaced. -/
def Memory.write : Memory → Nat → Byte → Memory
  | [], a, v => Memory.cons a v []
  | (k, w) :: rest, a, v =>
    if a < k then Memory.cons a v ((k, w) :: rest)
    else if a = k then Memory.cons a v rest
    else (k, w) :: Memory.write rest a v

/-- `MemRead(addr, 1)`: the byte at addr, or the fatal error OutOfBoundsAccess(addr)
(20_memory.md R31). -/
def memRead (s : State) (addr : Nat) : Except FatalError Byte :=
  if addr < s.params.memSize then .ok (Memory.read s.mem addr) else .error (.outOfBoundsAccess addr)

/-- `MemWrite(addr, 1, v)`: set the byte at addr, or the fatal error OutOfBoundsAccess(addr) with no
byte changed (20_memory.md R32). -/
def memWrite (s : State) (addr : Nat) (v : Byte) : Except FatalError State :=
  if addr < s.params.memSize then .ok { s with mem := Memory.write s.mem addr v }
  else .error (.outOfBoundsAccess addr)

/-! ### Fatal errors -/

/-- `raise E(info)` from the state `s` at the start of the cycle: every write of the cycle is
discarded, `status <- FAULT`, `err <- E(info)` (60_exceptions.md R154). -/
def takeFatal (e : FatalError) (s : State) : State := { s with status := .fault, err := some e }

/-- Go on with the value of a memory access, or take its fatal error from the state `start` at the
start of the cycle. -/
def orFatal {α : Type} (start : State) (access : Except FatalError α) (k : α → Result) : Result :=
  match access with
  | .ok v => k v
  | .error e => .next (takeFatal e start)

end Sys2Proof.Machine
end

