-- ==== Sys2Proof/Machine/Flags.lean ====
section
/-! DEFINITION. The flags register: what CMP computes (42_alu.md R104) and what the conditional jumps
test (44_control_transfer.md R137 to R140). -/

namespace Sys2Proof.Machine

open Sys2Proof

/-- The flags of the unsigned comparison of x with y, in the priority order of 42_alu.md R104. -/
def compareFlags (x y : Byte) : Flags :=
  if x.toNat > y.toNat then .greater
  else if x.toNat < y.toNat then .less
  else .equal

/-- `fl <- v`. -/
def State.setFl (s : State) (v : Flags) : State := { s with fl := v }

/-- JEQ's condition (44_control_transfer.md R137). -/
def condEqual (fl : Flags) : Bool := decide (fl = .equal)

/-- JNE's condition: GREATER, LESS or NONE (44_control_transfer.md R138; log entry 13 for NONE). -/
def condNotEqual (fl : Flags) : Bool := decide (fl ≠ .equal)

/-- JGT's condition (44_control_transfer.md R139). -/
def condGreater (fl : Flags) : Bool := decide (fl = .greater)

end Sys2Proof.Machine
end

