-- ==== Sys2Proof/Machine/Operands.lean ====
section
/-! DEFINITION. The operand forms: a register index (30_encoding.md R53, R54).  The other form, LDI's
immediate, is the operand byte used as is (R55). -/

namespace Sys2Proof.Machine

open Sys2Proof

/-- The register that a register-index operand selects: the numeric value of the byte, 0 to 7
(30_encoding.md R54). -/
def reg (o : Byte) : Option Reg :=
  match o.toNat with
  | 0 => some .r0
  | 1 => some .r1
  | 2 => some .r2
  | 3 => some .r3
  | 4 => some .r4
  | 5 => some .r5
  | 6 => some .r6
  | 7 => some .r7
  | _ => none

/-- `r <- reg(o)`: go on with the register, or refuse the cycle before any write
(30_encoding.md R54, 60_exceptions.md R158). -/
def withReg (o : Byte) (k : Reg → Result) : Result :=
  match reg o with
  | some r => k r
  | none => .refused .invalidRegisterIndex

end Sys2Proof.Machine
end

