-- ==== Sys2Proof/Machine/Alu.lean ====
section
/-! DEFINITION. The ALU (42_alu.md): MUL, ADD, CMP and, with `EXT_ALU`, SUB, DIV, MOD. -/

namespace Sys2Proof.Machine

open Sys2Proof

/-- The symbolic op names of the ALU (42_alu.md R100). -/
inductive AluOp where
  | mul | add | cmp | sub | div | mod
  deriving DecidableEq, Repr

/-- The low 8 bits of the product (42_alu.md R102, R112). -/
def mulResult (x y : Byte) : Byte := trunc8 (x.toNat * y.toNat)

/-- The sum modulo 256 (42_alu.md R103, R112). -/
def addResult (x y : Byte) : Byte := trunc8 (x.toNat + y.toNat)

/-- The difference modulo 256 (42_alu.md R108, R112). -/
def subResult (x y : Byte) : Byte := trunc8 (x.toNat - y.toNat)

/-- The floor of the unsigned quotient, for a divisor other than 0 (42_alu.md R109, R112). -/
def divResult (x y : Byte) : Byte := trunc8 (x.toNat / y.toNat : Nat)

/-- The unsigned remainder, for a divisor other than 0 (42_alu.md R110, R112). -/
def modResult (x y : Byte) : Byte := trunc8 (x.toNat - y.toNat * (x.toNat / y.toNat : Nat))

/-- The ALU: reads `x[r]` and `x[q]` and writes either `x[r]` or FL; it never reads memory and never
touches PC (42_alu.md R100, 40_cycle.md R81).  A zero divisor refuses the cycle (R115). -/
def alu (op : AluOp) (r q : Reg) (s : State) : Except Refusal State :=
  match op with
  | .mul => .ok (s.setReg r (mulResult (s.reg r) (s.reg q)))
  | .add => .ok (s.setReg r (addResult (s.reg r) (s.reg q)))
  | .cmp => .ok (s.setFl (compareFlags (s.reg r) (s.reg q)))
  | .sub => .ok (s.setReg r (subResult (s.reg r) (s.reg q)))
  | .div =>
    if s.reg q = 0#8 then .error .divideByZero
    else .ok (s.setReg r (divResult (s.reg r) (s.reg q)))
  | .mod =>
    if s.reg q = 0#8 then .error .divideByZero
    else .ok (s.setReg r (modResult (s.reg r) (s.reg q)))

/-- What every ALU instruction does (42_alu.md R101): resolve both register operands, operand A first,
run the ALU, advance. -/
def aluCycle (op : AluOp) (m : Mnemonic) (regA regB : Byte) (s : State) : Result :=
  withReg regA fun r => withReg regB fun q =>
    match alu op r q s with
    | .ok t => .next (t.advance m)
    | .error e => .refused e

/-- MUL regA, regB (42_alu.md R102). -/
def execMul (regA regB : Byte) (s : State) : Result := aluCycle .mul .mul regA regB s

/-- ADD regA, regB (42_alu.md R103). -/
def execAdd (regA regB : Byte) (s : State) : Result := aluCycle .add .add regA regB s

/-- CMP regA, regB (42_alu.md R104). -/
def execCmp (regA regB : Byte) (s : State) : Result := aluCycle .cmp .cmp regA regB s

/-- SUB regA, regB (42_alu.md R108). -/
def execSub (regA regB : Byte) (s : State) : Result := aluCycle .sub .sub regA regB s

/-- DIV regA, regB (42_alu.md R109). -/
def execDiv (regA regB : Byte) (s : State) : Result := aluCycle .div .div regA regB s

/-- MOD regA, regB (42_alu.md R110). -/
def execMod (regA regB : Byte) (s : State) : Result := aluCycle .mod .mod regA regB s

end Sys2Proof.Machine
end

