-- ==== Sys2Proof/Machine/ControlTransfer.lean ====
section
/-! DEFINITION. CALL, RET, JMP, JEQ, JNE and JGT (44_control_transfer.md).  The handler writes PC
itself in every case; the advance step does not run (R130; 40_cycle.md R79). -/

namespace Sys2Proof.Machine

open Sys2Proof

/-- CALL regA: `sp <- sp - 1`, `mem[sp] <- p + 2`, `pc <- x[r]` (read after the decrement) (R131,
R143).  `p + 2` fits the byte in every cycle whose fetch succeeded (R131; log entry 19). -/
def execCall (regA : Byte) (s : State) : Result :=
  withReg regA fun r =>
    let lowered := s.decSp
    orFatal s (memWrite lowered lowered.sp.toNat (trunc8 (s.pc + 2))) fun t =>
      .next (t.setPc (t.reg r).toNat)

/-- RET: `pc <- mem[sp]`, `sp <- sp + 1` (R132). -/
def execRet (s : State) : Result :=
  orFatal s (memRead s s.sp.toNat) fun v => .next ((s.setPc v.toNat).incSp)

/-- JMP regA: `pc <- x[r]` (R133). -/
def execJmp (regA : Byte) (s : State) : Result :=
  withReg regA fun r => .next (s.setPc (s.reg r).toNat)

/-- What every conditional jump does (R135, R136): the register index is checked whether or not the
jump is taken; taken, `pc <- x[r]`; not taken, the handler itself advances by 1 + operand count. -/
def conditionalJump (cond : Flags → Bool) (m : Mnemonic) (regA : Byte) (s : State) : Result :=
  withReg regA fun r => .next (if cond s.fl then s.setPc (s.reg r).toNat else s.advance m)

/-- JEQ regA (R137). -/
def execJeq (regA : Byte) (s : State) : Result := conditionalJump condEqual .jeq regA s

/-- JNE regA (R138). -/
def execJne (regA : Byte) (s : State) : Result := conditionalJump condNotEqual .jne regA s

/-- JGT regA (R139). -/
def execJgt (regA : Byte) (s : State) : Result := conditionalJump condGreater .jgt regA s

end Sys2Proof.Machine
end

