-- ==== Sys2Proof/Machine/LoadPrintHalt.lean ====
section
/-! DEFINITION. LDI, PRN and HLT (41_load_print_halt.md). -/

namespace Sys2Proof.Machine

open Sys2Proof

/-- LDI regA, imm: `x[reg(a)] <- imm`, then advance by 3 (R90). -/
def execLdi (regA imm : Byte) (s : State) : Result :=
  withReg regA fun r => .next ((s.setReg r imm).advance .ldi)

/-- PRN regA: `Emit(x[reg(a)])`, then advance by 2 (R91). -/
def execPrn (regA : Byte) (s : State) : Result :=
  withReg regA fun r => .next ((s.emit (s.reg r)).advance .prn)

/-- HLT: `status <- HALT`, then advance by 1 (R92; 40_cycle.md R80). -/
def execHlt (s : State) : Result := .next ((s.setStatus .halt).advance .hlt)

end Sys2Proof.Machine
end

