-- ==== Sys2Proof/Machine/Stack.lean ====
section
/-! DEFINITION. PUSH and POP (43_stack.md).  The statements of an effect run in the order the rule
writes them, each seeing the writes of the one before, also where the operand is R7 (R124; log
entry 12).  A stack access outside memory undoes the whole cycle (60_exceptions.md R154; log entry
14). -/

namespace Sys2Proof.Machine

open Sys2Proof

/-- PUSH regA: `sp <- sp - 1`, `mem[sp] <- x[r]` (read after the decrement), advance by 2 (R121). -/
def execPush (regA : Byte) (s : State) : Result :=
  withReg regA fun r =>
    let lowered := s.decSp
    orFatal s (memWrite lowered lowered.sp.toNat (lowered.reg r)) fun t => .next (t.advance .push)

/-- POP regA: `x[r] <- mem[sp]`, `sp <- sp + 1` (read again after the write of `x[r]`), advance by 2
(R122). -/
def execPop (regA : Byte) (s : State) : Result :=
  withReg regA fun r =>
    orFatal s (memRead s s.sp.toNat) fun v => .next ((s.setReg r v).incSp.advance .pop)

end Sys2Proof.Machine
end

