-- ==== Sys2Proof/Machine/Dispatch.lean ====
section
/-! DEFINITION. The meaning of each instruction (40_cycle.md R77). -/

namespace Sys2Proof.Machine
open Sys2Proof

/-- The execute and advance steps of the cycle of one instruction. -/
def exec (i : Instr) (s : State) : Host.Outcome State Fault Refusal :=
  match i with
  | .ldi a b => Sys2Proof.Machine.execLdi a b s
  | .prn a => Sys2Proof.Machine.execPrn a s
  | .hlt => Sys2Proof.Machine.execHlt s
  | .mul a b => Sys2Proof.Machine.execMul a b s
  | .add a b => Sys2Proof.Machine.execAdd a b s
  | .cmp a b => Sys2Proof.Machine.execCmp a b s
  | .push a => Sys2Proof.Machine.execPush a s
  | .pop a => Sys2Proof.Machine.execPop a s
  | .call a => Sys2Proof.Machine.execCall a s
  | .ret => Sys2Proof.Machine.execRet s
  | .jmp a => Sys2Proof.Machine.execJmp a s
  | .jeq a => Sys2Proof.Machine.execJeq a s
  | .jne a => Sys2Proof.Machine.execJne a s
  | .jgt a => Sys2Proof.Machine.execJgt a s
  | .sub a b => Sys2Proof.Machine.execSub a b s
  | .div a b => Sys2Proof.Machine.execDiv a b s
  | .mod a b => Sys2Proof.Machine.execMod a b s

end Sys2Proof.Machine
end

