-- ==== Sys2Proof/Machine/Fetch.lean ====
section
/-! DEFINITION. The fetch of a cycle (40_cycle.md R71 to R73), and the placing of one instruction
where the next fetch reads it. -/

namespace Sys2Proof.Machine

open Sys2Proof

/-- Read the opcode byte and the two bytes after it, whatever the opcode, in ascending order; the
first read outside memory ends the fetch with its fatal error (40_cycle.md R71, R72). -/
def fetch (s : State) : Except FatalError Latch :=
  match memRead s s.pc with
  | .error e => .error e
  | .ok op =>
    match memRead s (s.pc + 1) with
    | .error e => .error e
    | .ok a =>
      match memRead s (s.pc + 2) with
      | .error e => .error e
      | .ok b => .ok { op := op, a := a, b := b }

/-- The option `EXT_ALU` as it must stand for the byte to decode: on where it was on, and on where the
byte is one of the option's and no other instruction's (log entry 3). -/
def extAluFor (p : Params) (op : Byte) : Bool :=
  match dispatch { p with extAlu := true } op with
  | some m => p.extAlu || m.isOption
  | none => p.extAlu

/-- Memory with a byte written at an address that exists; an address outside memory is left alone. -/
def placeByte (size : Nat) (m : Memory) (addr : Nat) (v : Byte) : Memory :=
  if addr < size then Memory.write m addr v else m

/-- The state with three bytes where the next cycle fetches, the clock running (log entry 7). -/
def placeInstruction (s : State) (op a b : Byte) : State :=
  let size := s.params.memSize
  { s with
    status := .run
    err := none
    mem := placeByte size (placeByte size (placeByte size s.mem s.pc op) (s.pc + 1) a) (s.pc + 2) b
    params := { s.params with extAlu := extAluFor s.params op } }

end Sys2Proof.Machine
end

