-- ==== Sys2Proof/Machine/Step.lean ====
section
/-! DEFINITION. The step function: one tick of the clock (40_cycle.md R70, R82). -/

namespace Sys2Proof.Machine

open Sys2Proof

/-- One tick.  Where the run latch is not RUN, no cycle runs and nothing changes (R70; log entry 6).
Otherwise fetch, decode, execute and advance; the first fatal error or refusal reached ends the cycle
(R82, R84). -/
def step (s : State) : Host.Outcome State Fault Refusal :=
  match s.status with
  | .halt => .next s
  | .fault => .next s
  | .run =>
    orFatal s (fetch s) fun l =>
      match decode s.params l.op l.a l.b with
      | .error (.unknownOpcode op) => .next (takeFatal (.unknownOpcode s.pc op) s)
      | .ok i => exec i s

/-- `s` with the instruction of a table word stored where the next step fetches it, its bytes as they
lie in memory, opcode first (log entries 3 and 7). -/
def State.withFetchWord (s : State) (nbits w : Nat) : State :=
  placeInstruction s (tableByte nbits w 0) (tableByte nbits w 1) (tableByte nbits w 2)

end Sys2Proof.Machine
end

