-- ==== Sys2Proof/Machine/HostInterface.lean ====
section
/-! DEFINITION. What the host does to the machine from outside a cycle (40_cycle.md R83, R86;
70_reset_and_hazards.md R183, R192) and what it sees of the output channel (10_state.md R22). -/

namespace Sys2Proof.Machine

open Sys2Proof

/-- The external stop request: it acts between cycles, `status <- HALT` where it is RUN, and nothing
else (40_cycle.md R83). -/
def State.stopRequest (s : State) : State :=
  match s.status with
  | .run => s.setStatus .halt
  | .halt => s
  | .fault => s

/-- The loader's writes: one byte per address, ascending from `addr` (70_reset_and_hazards.md R183). -/
def loadImage (m : Memory) (addr : Nat) : List Byte → Memory
  | [] => m
  | v :: rest => loadImage (Memory.write m addr v) (addr + 1) rest

/-- The launch state: the reset state with the program image in memory from address 0; an image longer
than memory cannot be loaded (70_reset_and_hazards.md R183). -/
def launch (p : Params) (img : List Byte) : Option State :=
  if img.length ≤ p.memSize then
    some { State.resetWith p with mem := loadImage (State.resetWith p).mem 0 img }
  else none

/-- One decimal digit. -/
def digitChar (n : Nat) : Char := Char.ofNat (48 + n % 10)

/-- The text of one output entry: the unsigned decimal numeral of the value without leading zeros
(10_state.md R22; log entry 18). -/
def renderEntry (v : Byte) : String :=
  let n := v.toNat
  if n < 10 then String.ofList [digitChar n]
  else if n < 100 then String.ofList [digitChar (n / 10), digitChar n]
  else String.ofList [digitChar (n / 100), digitChar (n / 10), digitChar n]

end Sys2Proof.Machine
end

