-- ==== Sys2Proof/Safety.lean ====
section
/-! DEFINITION. The terms in which claims speak of a run: what a state keeps, the invariant of the
machine, the states a host can bring about. -/

namespace Sys2Proof.Machine

open Sys2Proof

/-- The next cycle's three fetch reads are inside memory (40_cycle.md R72). -/
def State.Fetchable (s : State) : Prop := s.pc + 2 < s.params.memSize

/-- The bytes at the program counter decode to `i`. -/
def Fetches (s : State) (i : Instr) : Prop :=
  ∃ l, fetch s = .ok l ∧ decode s.params l.op l.a l.b = .ok i

/-- Every register but those listed is unchanged. -/
def RegsKept (except : List Reg) (s t : State) : Prop := ∀ q, q ∉ except → t.reg q = s.reg q

/-- Every byte of memory but those at the listed addresses reads as before. -/
def MemKept (except : List Nat) (s t : State) : Prop :=
  ∀ a, a ∉ except → Memory.read t.mem a = Memory.read s.mem a

/-- The run latch, the error record and the parameters are unchanged. -/
def ControlKept (s t : State) : Prop :=
  t.status = s.status ∧ t.err = s.err ∧ t.params = s.params

/-- PC may differ and nothing else does. -/
def OnlyPcChanged (s t : State) : Prop :=
  RegsKept [] s t ∧ MemKept [] s t ∧ t.fl = s.fl ∧ t.out = s.out ∧ ControlKept s t

/-- The state after a fatal error taken from `s`: `status` and `err` are changed and nothing else is
(60_exceptions.md R154). -/
def FaultedFrom (e : FatalError) (s t : State) : Prop :=
  t.status = .fault ∧ t.err = some e ∧ t.regs = s.regs ∧ t.pc = s.pc ∧ t.fl = s.fl ∧
    t.mem = s.mem ∧ t.out = s.out ∧ t.params = s.params

/-- The registers an instruction may write, as the table of 10_state.md R11 lists them. -/
def writtenRegs : Instr → List Reg
  | .ldi a _ => (reg a).toList
  | .prn _ => []
  | .hlt => []
  | .mul a _ => (reg a).toList
  | .add a _ => (reg a).toList
  | .cmp _ _ => []
  | .push _ => [.r7]
  | .pop a => .r7 :: (reg a).toList
  | .call _ => [.r7]
  | .ret => [.r7]
  | .jmp _ => []
  | .jeq _ => []
  | .jne _ => []
  | .jgt _ => []
  | .sub a _ => (reg a).toList
  | .div a _ => (reg a).toList
  | .mod a _ => (reg a).toList

/-- The registers an instruction reads in a state, as the table of 10_state.md R11 lists them: a
conditional jump reads its register when it is taken. -/
def readRegs (i : Instr) (s : State) : List Reg :=
  match i with
  | .ldi _ _ => []
  | .prn a => (reg a).toList
  | .hlt => []
  | .mul a b => (reg a).toList ++ (reg b).toList
  | .add a b => (reg a).toList ++ (reg b).toList
  | .cmp a b => (reg a).toList ++ (reg b).toList
  | .push a => .r7 :: (reg a).toList
  | .pop _ => [.r7]
  | .call a => .r7 :: (reg a).toList
  | .ret => [.r7]
  | .jmp a => (reg a).toList
  | .jeq a => if s.fl = .equal then (reg a).toList else []
  | .jne a => if s.fl = .equal then [] else (reg a).toList
  | .jgt a => if s.fl = .greater then (reg a).toList else []
  | .sub a b => (reg a).toList ++ (reg b).toList
  | .div a b => (reg a).toList ++ (reg b).toList
  | .mod a b => (reg a).toList ++ (reg b).toList

/-- The addresses an instruction stores to, from the state it runs in: the decremented stack pointer
for PUSH and CALL, none for the others (20_memory.md R33). -/
def storedAddresses (i : Instr) (s : State) : List Nat :=
  match i with
  | .push _ | .call _ => [s.decSp.sp.toNat]
  | .ldi _ _ | .prn _ | .hlt | .mul _ _ | .add _ _ | .cmp _ _ | .pop _ | .ret | .jmp _ | .jeq _
  | .jne _ | .jgt _ | .sub _ _ | .div _ _ | .mod _ _ => []

/-- The instruction divides by zero in this state: DIV or MOD with `x[regB]` = 0 (42_alu.md R115). -/
def DividesByZero (i : Instr) (s : State) : Prop :=
  match i with
  | .div _ b | .mod _ b => ∃ q, reg b = some q ∧ s.reg q = 0#8
  | .ldi _ _ | .prn _ | .hlt | .mul _ _ | .add _ _ | .cmp _ _ | .push _ | .pop _ | .call _ | .ret
  | .jmp _ | .jeq _ | .jne _ | .jgt _ | .sub _ _ => False

/-- The invariant of the machine. -/
structure State.Inv (s : State) : Prop where
  /-- The parameters are allowed ones (00_scope.md R2). -/
  params : s.params.Valid
  /-- Memory is in its canonical form. -/
  memWf : Memory.wf s.mem
  /-- Every listed byte is inside memory (20_memory.md R30). -/
  memBound : ∀ c ∈ s.mem, c.1 < s.params.memSize
  /-- PC holds 0 to 256 (10_state.md R15). -/
  pcBound : s.pc ≤ 256
  /-- The error record is full exactly in the status FAULT (10_state.md R20; 60_exceptions.md R154). -/
  errFault : s.status = .fault ↔ s.err.isSome
  /-- A recorded address is outside memory and no fetch or stack address is above 258
  (60_exceptions.md R152). -/
  errAddress : ∀ a, s.err = some (.outOfBoundsAccess a) → s.params.memSize ≤ a ∧ a ≤ 258
  /-- A recorded opcode is the undefined byte at the recorded PC, which PC still holds
  (60_exceptions.md R151). -/
  errOpcode : ∀ p op, s.err = some (.unknownOpcode p op) →
    p = s.pc ∧ Memory.read s.mem p = op ∧ dispatch s.params op = none

/-- The states that a host can bring about on a machine with parameters `p` (70_reset_and_hazards.md
R192): it loads any image, then ticks, and may send a stop request between any two cycles. -/
inductive Reachable (p : Params) : State → Prop where
  | launched (img : List Byte) (s : State) : launch p img = some s → Reachable p s
  | ticked (s t : State) : Reachable p s → step s = .next t → Reachable p t
  | stopped (s : State) : Reachable p s → Reachable p s.stopRequest

end Sys2Proof.Machine
end

