-- ==== Sys2Proof/Certificates/Slice0/Obligations.lean ====
section
/-! DEFINITION. The statements about the machine.  Each docstring names the rule of spec/ that the
statement formalises, and the log entry of any choice it rests on. -/

open Sys2Proof Sys2Proof.Machine

/-! ### Encoding and decoding -/

/-- A few words of 30_encoding.md R57, written out bit by bit, decode to their instructions; 0x00, a
byte with bits 7:6 = 11, a byte that differs from ADD in bit 5 only, and SUB's byte with the option
off are rejected (R58, R59).  The byte values are the spec's defaults (D6; log entry 2). -/
def Obligations.DefaultWordsDecode : Prop :=
  decode Params.default 0b10011001 2 42 = .ok (.ldi 2 42) ∧
  decode Params.default 0b01000011 1 0 = .ok (.prn 1) ∧
  decode Params.default 0b00000001 0 0 = .ok .hlt ∧
  decode Params.default 0b10101010 0 1 = .ok (.mul 0 1) ∧
  decode Params.default 0b10100000 3 2 = .ok (.cmp 3 2) ∧
  decode Params.default 0b01001101 5 9 = .ok (.push 5) ∧
  decode Params.default 0b01001000 6 9 = .ok (.call 6) ∧
  decode Params.default 0b01010100 7 9 = .ok (.jgt 7) ∧
  decode { Params.default with extAlu := true } 0b10101001 4 5 = .ok (.sub 4 5) ∧
  decode Params.default 0b10101001 4 5 = .error (.unknownOpcode 0xA9) ∧
  decode Params.default 0b00000000 0 0 = .error (.unknownOpcode 0x00) ∧
  decode Params.default 0b11000001 0 0 = .error (.unknownOpcode 0xC1) ∧
  decode Params.default 0b10001000 0 1 = .error (.unknownOpcode 0x88)

/-- Decoding the bytes of an instruction gives it back, for every instruction of the machine, every
operand byte, every allowed opcode map, and whatever bytes follow (30_encoding.md R50, R52, R60). -/
def Obligations.DecodeEncodeRoundTrip : Prop :=
  ∀ (p : Params) (i : Instr) (op a b : Byte) (following rest : List Byte),
    p.Valid → p.enabled i.mnemonic = true →
    encode p i ++ following = op :: a :: b :: rest →
    decode p op a b = .ok i

/-- What the decoder accepts is the encoding of its answer, followed by the bytes that are not part
of the instruction; the encoding has `1 + nops(op)` bytes (30_encoding.md R52, R59). -/
def Obligations.EncodeDecodeRoundTrip : Prop :=
  ∀ (p : Params) (op a b : Byte) (i : Instr),
    p.Valid → decode p op a b = .ok i →
    p.enabled i.mnemonic = true ∧ (encode p i).length = 1 + nops op ∧
      ∃ unused, encode p i ++ unused = [op, a, b]

/-- The decoder rejects a byte by name exactly where no mnemonic of the machine has that exact byte
(30_encoding.md R58, R59; 40_cycle.md R74). -/
def Obligations.UnknownOpcodeIffNoTableEntry : Prop :=
  ∀ (p : Params) (op a b : Byte),
    decode p op a b = .error (.unknownOpcode op) ↔
      ∀ m, p.enabled m = true → p.opcode m ≠ op

/-- The fetched bytes that are not part of the instruction affect nothing: operand B of an opcode with
at most one operand, both operands of an opcode with none (30_encoding.md R60). -/
def Obligations.UnusedOperandBytesIgnored : Prop :=
  ∀ (p : Params) (op a b a' b' : Byte), p.Valid →
    (nops op ≤ 1 → decode p op a b = decode p op a b') ∧
    (nops op = 0 → decode p op a b = decode p op a' b')

/-- A register-index operand selects the register whose number is the byte's value, and none above 7
(30_encoding.md R54; the refusal of the others is the spec's decision D7, log entry 5). -/
def Obligations.OperandSelectsRegister : Prop :=
  reg 0 = some .r0 ∧ reg 1 = some .r1 ∧ reg 2 = some .r2 ∧ reg 3 = some .r3 ∧
  reg 4 = some .r4 ∧ reg 5 = some .r5 ∧ reg 6 = some .r6 ∧ reg 7 = some .r7 ∧
  ∀ o : Byte, 7 < o.toNat → reg o = none

/-! ### Memory -/

/-- A write inside memory sets its byte, leaves every other byte and all other state as they were, and
a write at or above `MEM_SIZE` raises OutOfBoundsAccess with no next state of memory
(20_memory.md R32). -/
def Obligations.MemWriteSetsOneByte : Prop :=
  ∀ (s : State) (addr : Nat) (v : Byte), Memory.wf s.mem →
    (addr < s.params.memSize → ∃ t, memWrite s addr v = .ok t ∧ memRead t addr = .ok v ∧
      (∀ b, b ≠ addr → memRead t b = memRead s b) ∧ { t with mem := s.mem } = s) ∧
    (s.params.memSize ≤ addr → memWrite s addr v = .error (.outOfBoundsAccess addr))

/-- Two memories in the canonical form that read the same at every address are the same data.  The
form is the model's choice (log entry 15). -/
def Obligations.EqualReadsAreEqualMemories : Prop :=
  ∀ m n : Memory, Memory.wf m → Memory.wf n →
    (∀ a, Memory.read m a = Memory.read n a) → m = n

/-! ### Reset and launch -/

/-- The reset state of a machine with parameters p (10_state.md R26, 70_reset_and_hazards.md R180,
R182), and of the default machine, whose `SP_INIT` is 0xF4 and `MEM_SIZE` 256 (00_scope.md R2: the
spec's defaults, D3, D4). -/
def Obligations.ResetLeavesStatedValues : Prop :=
  (∀ p : Params, (∀ r, r ≠ .r7 → (State.resetWith p).reg r = 0) ∧
    (State.resetWith p).reg .r7 = p.spInit ∧
    (State.resetWith p).pc = 0 ∧ (State.resetWith p).fl = .none ∧
    (State.resetWith p).status = .run ∧ (State.resetWith p).err = none ∧
    (State.resetWith p).out = [] ∧ (State.resetWith p).params = p ∧
    ∀ a, a < p.memSize → memRead (State.resetWith p) a = .ok 0) ∧
  State.reset.reg .r7 = 0xF4 ∧ State.reset.params.memSize = 256 ∧
  State.reset.params.extAlu = false

/-- The launch state is the reset state with the image in memory from address 0 and zero after it; an
image longer than memory cannot be loaded; the loader touches nothing else
(70_reset_and_hazards.md R183). -/
def Obligations.LaunchLoadsImage : Prop :=
  ∀ (p : Params) (img : List Byte),
    (img.length ≤ p.memSize → ∃ s, launch p img = some s ∧
      (∀ i (h : i < img.length), memRead s i = .ok img[i]) ∧
      (∀ i, img.length ≤ i → i < p.memSize → memRead s i = .ok 0) ∧
      { s with mem := [] } = State.resetWith p) ∧
    (p.memSize < img.length → launch p img = none)

/-! ### The cycle -/

/-- While the clock runs, a step is the meaning of the instruction that the bytes at PC decode to
(40_cycle.md R77, R82).  The step adds nothing around `exec`: the advance of PC is in it. -/
def Obligations.StepRunsDecodedInstruction : Prop :=
  ∀ (s : State) (i : Instr), s.status = .run → Fetches s i → step s = exec i s

/-- The fetch: three bytes from PC on, whatever the opcode, latched in ascending order; the first
address outside memory ends the cycle with OutOfBoundsAccess of that address and nothing else changed
(40_cycle.md R71, R72; the eager, bounds-checked read is conflict C4 and decision D8, log entry
10; that the error is taken as a next state is the model's reading, log entry 4). -/
def Obligations.FetchReadsThreeBytesInBounds : Prop :=
  ∀ s : State, s.status = .run →
    (s.params.memSize ≤ s.pc →
      ∃ t, step s = .next t ∧ FaultedFrom (.outOfBoundsAccess s.pc) s t) ∧
    (s.pc + 1 = s.params.memSize →
      ∃ t, step s = .next t ∧ FaultedFrom (.outOfBoundsAccess (s.pc + 1)) s t) ∧
    (s.pc + 2 = s.params.memSize →
      ∃ t, step s = .next t ∧ FaultedFrom (.outOfBoundsAccess (s.pc + 2)) s t) ∧
    (s.pc + 2 < s.params.memSize →
      ∃ l, fetch s = .ok l ∧ memRead s s.pc = .ok l.op ∧ memRead s (s.pc + 1) = .ok l.a ∧
        memRead s (s.pc + 2) = .ok l.b)

/-- An opcode byte without a table entry, fetched inside memory, stops the clock with UnknownOpcode of
that PC and byte and leaves everything else as it was (60_exceptions.md R151, R154; that the error is
taken as a next state is the model's reading, log entry 4). -/
def Obligations.UnknownOpcodeStopsUnchanged : Prop :=
  ∀ s : State, s.status = .run → s.Fetchable →
    (∀ m, s.params.enabled m = true → s.params.opcode m ≠ Memory.read s.mem s.pc) →
    ∃ t, step s = .next t ∧ FaultedFrom (.unknownOpcode s.pc (Memory.read s.mem s.pc)) s t

/-- In HALT and in FAULT a tick, and any number of ticks, change nothing (10_state.md R19,
40_cycle.md R70, 60_exceptions.md R159, R166; decision D13, log entry 6). -/
def Obligations.StoppedMachineNeverChanges : Prop :=
  ∀ s : State, s.status = .halt ∨ s.status = .fault → ∀ n : Nat, core.run n s = .next s

/-- `exec` refuses in two situations only, each under its own name: an operand byte above 7 used as a
register index, checked before anything else, and DIV or MOD with a zero divisor (30_encoding.md R54,
42_alu.md R115, 44_control_transfer.md R136, 60_exceptions.md R156, R158; decisions D7, D12, D16, log
entry 5).  On everything else every instruction answers a next state. -/
def Obligations.RefusedExactlyWhen : Prop :=
  ∀ (i : Instr) (s : State),
    (i.wellFormed = false → exec i s = .refused .invalidRegisterIndex) ∧
    (i.wellFormed = true → DividesByZero i s → exec i s = .refused .divideByZero) ∧
    (i.wellFormed = true → ¬ DividesByZero i s → ∃ t, exec i s = .next t)

/-! ### Load, print, halt -/

/-- LDI loads the immediate as it is and advances PC by 3; nothing else changes
(41_load_print_halt.md R90). -/
def Obligations.LdiLoadsImmediate : Prop :=
  ∀ (s : State) (a imm : Byte) (r : Reg), s.params.Valid → reg a = some r →
    ∃ t, exec (.ldi a imm) s = .next t ∧ t.reg r = imm ∧ t.pc = s.pc + 3 ∧
      RegsKept [r] s t ∧ MemKept [] s t ∧ t.fl = s.fl ∧ t.out = s.out ∧ ControlKept s t

/-- PRN appends the register's value to the output channel and advances PC by 2; nothing else changes
(41_load_print_halt.md R91, 10_state.md R22). -/
def Obligations.PrnAppendsRegister : Prop :=
  ∀ (s : State) (a : Byte) (r : Reg), s.params.Valid → reg a = some r →
    ∃ t, exec (.prn a) s = .next t ∧ t.out = s.out ++ [s.reg r] ∧ t.pc = s.pc + 2 ∧
      RegsKept [] s t ∧ MemKept [] s t ∧ t.fl = s.fl ∧ ControlKept s t

/-- HLT stops the clock and advances PC by 1; nothing else changes (41_load_print_halt.md R92,
40_cycle.md R80). -/
def Obligations.HltStopsClock : Prop :=
  ∀ s : State, s.params.Valid →
    ∃ t, exec .hlt s = .next t ∧ t.status = .halt ∧ t.pc = s.pc + 1 ∧
      RegsKept [] s t ∧ MemKept [] s t ∧ t.fl = s.fl ∧ t.out = s.out ∧ t.err = s.err ∧
      t.params = s.params

/-! ### The ALU -/

/-- MUL writes the low 8 bits of the product of the values its registers had before, advances PC by 3,
and leaves FL and everything else alone (42_alu.md R102, R112). -/
def Obligations.MulWrapsProduct : Prop :=
  ∀ (s : State) (a b : Byte) (r q : Reg), s.params.Valid → reg a = some r → reg b = some q →
    ∃ t, exec (.mul a b) s = .next t ∧
      (t.reg r).toNat = (s.reg r).toNat * (s.reg q).toNat % 256 ∧ t.pc = s.pc + 3 ∧
      RegsKept [r] s t ∧ MemKept [] s t ∧ t.fl = s.fl ∧ t.out = s.out ∧ ControlKept s t

/-- ADD writes the sum modulo 256, advances PC by 3, and leaves FL and everything else alone
(42_alu.md R103, R112). -/
def Obligations.AddWrapsSum : Prop :=
  ∀ (s : State) (a b : Byte) (r q : Reg), s.params.Valid → reg a = some r → reg b = some q →
    ∃ t, exec (.add a b) s = .next t ∧
      (t.reg r).toNat = ((s.reg r).toNat + (s.reg q).toNat) % 256 ∧ t.pc = s.pc + 3 ∧
      RegsKept [r] s t ∧ MemKept [] s t ∧ t.fl = s.fl ∧ t.out = s.out ∧ ControlKept s t

/-- CMP sets FL to exactly one of GREATER, LESS, EQUAL by the unsigned order of its registers, keeps
every register, and advances PC by 3 (42_alu.md R104, R105). -/
def Obligations.CmpSetsFlagsByUnsignedOrder : Prop :=
  ∀ (s : State) (a b : Byte) (r q : Reg), s.params.Valid → reg a = some r → reg b = some q →
    ∃ t, exec (.cmp a b) s = .next t ∧
      (t.fl = .greater ↔ (s.reg q).toNat < (s.reg r).toNat) ∧
      (t.fl = .less ↔ (s.reg r).toNat < (s.reg q).toNat) ∧
      (t.fl = .equal ↔ s.reg r = s.reg q) ∧ t.fl ≠ .none ∧ t.pc = s.pc + 3 ∧
      RegsKept [] s t ∧ MemKept [] s t ∧ t.out = s.out ∧ ControlKept s t

/-- SUB, on a machine with `EXT_ALU`, writes the difference modulo 256, advances PC by 3, and leaves
FL and everything else alone (42_alu.md R107, R108, R112; decision D15, log entry 2). -/
def Obligations.SubWrapsDifference : Prop :=
  ∀ (s : State) (a b : Byte) (r q : Reg), s.params.Valid → s.params.extAlu = true →
    reg a = some r → reg b = some q →
    ∃ t, exec (.sub a b) s = .next t ∧
      (t.reg r).toNat = ((s.reg r).toNat + 256 - (s.reg q).toNat) % 256 ∧ t.pc = s.pc + 3 ∧
      RegsKept [r] s t ∧ MemKept [] s t ∧ t.fl = s.fl ∧ t.out = s.out ∧ ControlKept s t

/-- DIV, on a machine with `EXT_ALU`, writes the floor of the unsigned quotient when the divisor is
not 0 and is refused when it is (42_alu.md R109, R112, R115; decisions D15, D16, log entries 2 and
5). -/
def Obligations.DivWritesQuotient : Prop :=
  ∀ (s : State) (a b : Byte) (r q : Reg), s.params.Valid → s.params.extAlu = true →
    reg a = some r → reg b = some q →
    (s.reg q ≠ 0 → ∃ t, exec (.div a b) s = .next t ∧
      (t.reg r).toNat = (s.reg r).toNat / (s.reg q).toNat ∧ t.pc = s.pc + 3 ∧
      RegsKept [r] s t ∧ MemKept [] s t ∧ t.fl = s.fl ∧ t.out = s.out ∧ ControlKept s t) ∧
    (s.reg q = 0 → exec (.div a b) s = .refused .divideByZero)

/-- MOD, on a machine with `EXT_ALU`, writes the unsigned remainder when the divisor is not 0 and is
refused when it is (42_alu.md R110, R112, R115; decisions D15, D16, log entries 2 and 5). -/
def Obligations.ModWritesRemainder : Prop :=
  ∀ (s : State) (a b : Byte) (r q : Reg), s.params.Valid → s.params.extAlu = true →
    reg a = some r → reg b = some q →
    (s.reg q ≠ 0 → ∃ t, exec (.mod a b) s = .next t ∧
      (t.reg r).toNat = (s.reg r).toNat % (s.reg q).toNat ∧ t.pc = s.pc + 3 ∧
      RegsKept [r] s t ∧ MemKept [] s t ∧ t.fl = s.fl ∧ t.out = s.out ∧ ControlKept s t) ∧
    (s.reg q = 0 → exec (.mod a b) s = .refused .divideByZero)

/-- The separation of the ALU: the whole effect of an ALU instruction is on the register file or on
FL, its PC change is the advance alone, and it never reads memory: with another memory it does the
same and leaves that memory as it is (40_cycle.md R81). -/
def Obligations.AluNeverTouchesMemoryOrPc : Prop :=
  ∀ (i : Instr) (s : State), i.mnemonic.usesAlu = true →
    (∀ t, exec i s = .next t →
      t.mem = s.mem ∧ t.out = s.out ∧ ControlKept s t ∧
      t.pc = s.pc + 1 + nops (s.params.opcode i.mnemonic) ∧
      ((t.fl = s.fl ∧ RegsKept (writtenRegs i) s t) ∨ RegsKept [] s t)) ∧
    (∀ (m : Memory) (t : State), exec i s = .next t →
      exec i { s with mem := m } = .next { t with mem := m }) ∧
    (∀ (m : Memory) (e : Refusal), exec i s = .refused e →
      exec i { s with mem := m } = .refused e)

/-! ### The stack -/

/-- PUSH lowers SP by 1 (wrapping at 8 bits), stores the register at the new SP, and advances PC by 2;
`PUSH R7` stores the lowered SP.  Every other byte and register is unchanged (43_stack.md R121, R124;
10_state.md R12; decision D23 for R7, log entry 12). -/
def Obligations.PushStoresBelowStackPointer : Prop :=
  ∀ (s : State) (a : Byte) (r : Reg), s.params.Valid → Memory.wf s.mem → reg a = some r →
    (s.reg .r7 - 1).toNat < s.params.memSize →
    ∃ t, exec (.push a) s = .next t ∧ t.reg .r7 = s.reg .r7 - 1 ∧
      memRead t (s.reg .r7 - 1).toNat = .ok (if r = .r7 then s.reg .r7 - 1 else s.reg r) ∧
      t.pc = s.pc + 2 ∧ RegsKept [.r7] s t ∧ MemKept [(s.reg .r7 - 1).toNat] s t ∧
      t.fl = s.fl ∧ t.out = s.out ∧ ControlKept s t

/-- POP loads the register from the byte at SP, raises SP by 1 (wrapping at 8 bits) and advances PC by
2; `POP R7` leaves the loaded byte plus 1.  Memory and every other register are unchanged
(43_stack.md R122, R124; decision D23 for R7, log entry 12). -/
def Obligations.PopLoadsFromStackPointer : Prop :=
  ∀ (s : State) (a v : Byte) (r : Reg), s.params.Valid → reg a = some r →
    memRead s (s.reg .r7).toNat = .ok v →
    ∃ t, exec (.pop a) s = .next t ∧
      (r ≠ .r7 → t.reg r = v ∧ t.reg .r7 = s.reg .r7 + 1) ∧ (r = .r7 → t.reg .r7 = v + 1) ∧
      t.pc = s.pc + 2 ∧ RegsKept [r, .r7] s t ∧ MemKept [] s t ∧
      t.fl = s.fl ∧ t.out = s.out ∧ ControlKept s t

/-- PUSH then POP of the same register, other than R7, gives back every register, SP among them, and
leaves the register's value in the byte below SP (43_stack.md R123). -/
def Obligations.PushPopRoundTrip : Prop :=
  ∀ (s : State) (a : Byte) (r : Reg), s.params.Valid → Memory.wf s.mem → reg a = some r → r ≠ .r7 →
    (s.reg .r7 - 1).toNat < s.params.memSize →
    ∃ t u, exec (.push a) s = .next t ∧ exec (.pop a) t = .next u ∧ RegsKept [] s u ∧
      memRead u (s.reg .r7 - 1).toNat = .ok (s.reg r) ∧ u.pc = s.pc + 4

/-! ### Control transfer -/

/-- CALL lowers SP by 1, stores the address after itself at the new SP, and jumps to the register;
`CALL R7` jumps to the lowered SP.  The return address is `p + 2` with no truncation, since the fetch
succeeded (44_control_transfer.md R131, R143; decision D23 for R7, log entry 12). -/
def Obligations.CallSavesReturnAddress : Prop :=
  ∀ (s : State) (a : Byte) (r : Reg), s.params.Valid → Memory.wf s.mem → s.Fetchable →
    reg a = some r → (s.reg .r7 - 1).toNat < s.params.memSize →
    ∃ t v, exec (.call a) s = .next t ∧ t.reg .r7 = s.reg .r7 - 1 ∧
      memRead t (s.reg .r7 - 1).toNat = .ok v ∧ v.toNat = s.pc + 2 ∧
      t.pc = (if r = .r7 then s.reg .r7 - 1 else s.reg r).toNat ∧
      RegsKept [.r7] s t ∧ MemKept [(s.reg .r7 - 1).toNat] s t ∧
      t.fl = s.fl ∧ t.out = s.out ∧ ControlKept s t

/-- RET jumps to the byte at SP and raises SP by 1; nothing else changes
(44_control_transfer.md R132). -/
def Obligations.RetJumpsToSavedByte : Prop :=
  ∀ (s : State) (v : Byte), memRead s (s.reg .r7).toNat = .ok v →
    ∃ t, exec .ret s = .next t ∧ t.pc = v.toNat ∧ t.reg .r7 = s.reg .r7 + 1 ∧
      RegsKept [.r7] s t ∧ MemKept [] s t ∧ t.fl = s.fl ∧ t.out = s.out ∧ ControlKept s t

/-- After a CALL, a RET in any state that has SP and the saved byte as the CALL left them returns to
the instruction after the CALL's operand, with SP as before the CALL (44_control_transfer.md R134). -/
def Obligations.CallRetRoundTrip : Prop :=
  ∀ (s t u : State) (a : Byte), s.params.Valid → Memory.wf s.mem → s.Fetchable →
    s.status = .run → exec (.call a) s = .next t → t.status = .run →
    u.reg .r7 = t.reg .r7 → memRead u (t.reg .r7).toNat = memRead t (t.reg .r7).toNat →
    ∃ v, exec .ret u = .next v ∧ v.pc = s.pc + 2 ∧ v.reg .r7 = s.reg .r7

/-- JMP jumps to the address in the register, its own address among them, and changes nothing else
(44_control_transfer.md R133). -/
def Obligations.JmpJumpsToRegister : Prop :=
  ∀ (s : State) (a : Byte) (r : Reg), reg a = some r →
    ∃ t, exec (.jmp a) s = .next t ∧ t.pc = (s.reg r).toNat ∧ OnlyPcChanged s t

/-- The conditional jumps, for every value of FL: JEQ is taken on EQUAL only, JNE on everything but
EQUAL, JGT on GREATER only; taken, PC is the register's value, not taken, `p + 2`; nothing else
changes (44_control_transfer.md R135, R137 to R140; FL = NONE is decision D22, log entry 13). -/
def Obligations.ConditionalJumpTable : Prop :=
  ∀ (s : State) (a : Byte) (r : Reg), s.params.Valid → reg a = some r →
    (∃ t, exec (.jeq a) s = .next t ∧ OnlyPcChanged s t ∧
      t.pc = match s.fl with
        | .none => s.pc + 2
        | .equal => (s.reg r).toNat
        | .greater => s.pc + 2
        | .less => s.pc + 2) ∧
    (∃ t, exec (.jne a) s = .next t ∧ OnlyPcChanged s t ∧
      t.pc = match s.fl with
        | .none => (s.reg r).toNat
        | .equal => s.pc + 2
        | .greater => (s.reg r).toNat
        | .less => (s.reg r).toNat) ∧
    (∃ t, exec (.jgt a) s = .next t ∧ OnlyPcChanged s t ∧
      t.pc = match s.fl with
        | .none => s.pc + 2
        | .equal => s.pc + 2
        | .greater => (s.reg r).toNat
        | .less => s.pc + 2)

/-! ### Stack accesses outside memory -/

/-- A stack access at or above `MEM_SIZE` takes OutOfBoundsAccess of its address and undoes the whole
cycle, the change of SP among it (60_exceptions.md R152, R154; decision D10, log entries 4 and
14). -/
def Obligations.StackFaultUndoesCycle : Prop :=
  ∀ (s : State) (a : Byte) (r : Reg), reg a = some r →
    (s.params.memSize ≤ (s.reg .r7 - 1).toNat →
      (∃ t, exec (.push a) s = .next t ∧
        FaultedFrom (.outOfBoundsAccess (s.reg .r7 - 1).toNat) s t) ∧
      (∃ t, exec (.call a) s = .next t ∧
        FaultedFrom (.outOfBoundsAccess (s.reg .r7 - 1).toNat) s t)) ∧
    (s.params.memSize ≤ (s.reg .r7).toNat →
      (∃ t, exec (.pop a) s = .next t ∧ FaultedFrom (.outOfBoundsAccess (s.reg .r7).toNat) s t) ∧
      (∃ t, exec .ret s = .next t ∧ FaultedFrom (.outOfBoundsAccess (s.reg .r7).toNat) s t))

/-- With 256 bytes of memory OutOfBoundsAccess is met exactly when PC is 254, 255 or 256: a stack
access never is out of bounds (20_memory.md R39).  That the machine faults at 254 and 255 whatever the
opcode rests on the eager fetch (conflict C4, decision D8, log entry 10); that the error is taken as a
next state is the model's reading (log entry 4). -/
def Obligations.FullMemoryFaultsOnlyAtTop : Prop :=
  ∀ s : State, s.status = .run → s.params.memSize = 256 → s.pc ≤ 256 →
    ((∃ t a, step s = .next t ∧ t.status = .fault ∧ t.err = some (.outOfBoundsAccess a)) ↔
      s.pc = 254 ∨ s.pc = 255 ∨ s.pc = 256)

/-! ### Rules about every instruction -/

/-- FL is written by CMP only.  It is read by JEQ, JNE and JGT only: any other instruction does the same
whatever FL is, and FL is afterwards what the instruction wrote or what it was.  No instruction copies FL
to a register or to memory (10_state.md R17). -/
def Obligations.OnlyCmpWritesOnlyJumpsReadFlags : Prop :=
  (∀ s t : State, step s = .next t → t.fl ≠ s.fl → ∃ a b, Fetches s (.cmp a b)) ∧
  (∀ (i : Instr) (s : State) (f : Flags),
    i.mnemonic ≠ .jeq → i.mnemonic ≠ .jne → i.mnemonic ≠ .jgt →
    (∀ t, exec i s = .next t → ∃ g, (g = t.fl ∨ (t.fl = s.fl ∧ g = f)) ∧
      exec i { s with fl := f } = .next { t with fl := g }) ∧
    (∀ e, exec i s = .refused e → exec i { s with fl := f } = .refused e)) ∧
  (∀ (i : Instr) (s : State) (f : Flags) (t u : State),
    exec i s = .next t → exec i { s with fl := f } = .next u → u.regs = t.regs ∧ u.mem = t.mem)

/-- Once a CMP has run, FL never returns to NONE (10_state.md R16; decision D9). -/
def Obligations.FlagsNeverReturnToNone : Prop :=
  ∀ s t : State, step s = .next t → s.fl ≠ .none → t.fl ≠ .none

/-- The output channel is append-only: a step leaves it as it is, or appends exactly one entry, the
value of the register that a PRN names (10_state.md R22; the list is the spec's decision D14). -/
def Obligations.OnlyPrnAppendsOutput : Prop :=
  ∀ s t : State, step s = .next t →
    t.out = s.out ∨ ∃ a r, Fetches s (.prn a) ∧ reg a = some r ∧ t.out = s.out ++ [s.reg r]

/-- Memory changes only by PUSH and CALL, and then at the lowered SP only, the address that their
meaning stores to (20_memory.md R33). -/
def Obligations.OnlyPushAndCallStore : Prop :=
  ∀ s t : State, step s = .next t →
    t.mem = s.mem ∨
    ∃ i a, Fetches s i ∧ (i = .push a ∨ i = .call a) ∧ storedAddresses i s = [s.decSp.sp.toNat] ∧
      MemKept (storedAddresses i s) s t

/-- The register accesses are those of the table of 10_state.md R11: a step changes no register but
those the table says the fetched instruction writes; and a register that the table does not say the
instruction reads has no influence on anything but itself. -/
def Obligations.RegisterAccessesAreListed : Prop :=
  (∀ (s t : State) (q : Reg), step s = .next t → t.reg q ≠ s.reg q →
    ∃ i, Fetches s i ∧ q ∈ writtenRegs i) ∧
  (∀ (i : Instr) (s : State) (q : Reg) (v : Byte), q ∉ readRegs i s →
    (∀ t, exec i s = .next t → ∃ u, exec i (s.setReg q v) = .next u ∧ RegsKept [q] t u ∧
      u.pc = t.pc ∧ u.fl = t.fl ∧ u.status = t.status ∧ u.err = t.err ∧ u.mem = t.mem ∧
      u.out = t.out ∧ u.params = t.params) ∧
    (∀ e, exec i s = .refused e → exec i (s.setReg q v) = .refused e))

/-- The advance: in a cycle that ends without error, an opcode that is no control-transfer opcode
moves PC by `1 + operand_count`, decoded from bits 7:6 of the opcode byte fetched: HLT by 1, PRN, PUSH
and POP by 2, the others by 3.  The cycle of a JMP has no advance, also where the jump leaves PC as it
was (40_cycle.md R78, 44_control_transfer.md R133). -/
def Obligations.AdvanceByOperandCount : Prop :=
  (∀ (s t : State) (i : Instr), s.params.Valid → s.status = .run → Fetches s i →
    i.mnemonic.isControlTransfer = false → step s = .next t → t.status ≠ .fault →
    t.pc = s.pc + 1 + nops (Memory.read s.mem s.pc) ∧
    t.pc = s.pc + (match i.mnemonic with
      | .hlt => 1
      | .prn | .push | .pop => 2
      | _ => 3)) ∧
  (∀ (s t : State) (a : Byte) (r : Reg), s.status = .run → Fetches s (.jmp a) → reg a = some r →
    (s.reg r).toNat = s.pc → step s = .next t → t.pc = s.pc)

/-- A cycle that raises a fatal error changes the run latch and the error record and nothing else; the
error is UnknownOpcode of the byte at PC, which has no table entry, or OutOfBoundsAccess of an address
from `MEM_SIZE` to 258 (60_exceptions.md R150 to R154; decision D10, log entries 4 and 14). -/
def Obligations.FatalErrorChangesOnlyStatusAndErr : Prop :=
  ∀ s t : State, s.status = .run → s.pc ≤ 256 → step s = .next t → t.status = .fault →
    (FaultedFrom (.unknownOpcode s.pc (Memory.read s.mem s.pc)) s t ∧
      ∀ m, s.params.enabled m = true → s.params.opcode m ≠ Memory.read s.mem s.pc) ∨
    (∃ a, FaultedFrom (.outOfBoundsAccess a) s t ∧ s.params.memSize ≤ a ∧ a ≤ 258)

/-- A cycle leaves RUN for HALT by HLT only, and then only the run latch and PC change
(40_cycle.md R84, 41_load_print_halt.md R92). -/
def Obligations.OnlyHltHalts : Prop :=
  ∀ s t : State, s.params.Valid → s.status = .run → step s = .next t → t.status = .halt →
    Fetches s .hlt ∧ t = { s with status := .halt, pc := s.pc + 1 }

/-- No step changes the parameters or the dispatch table (10_state.md R27, 00_scope.md R2). -/
def Obligations.ParametersNeverChange : Prop :=
  ∀ s t : State, step s = .next t → t.params = s.params ∧ dispatch t.params = dispatch s.params

/-- A byte that PUSH stores is seen by the fetch of the very next cycle, as its opcode where the byte
lies at the next PC (20_memory.md R42).  That PUSH R7 stores the lowered SP is decision D23 (43_stack.md
R124), log entry 12. -/
def Obligations.PushedByteSeenByNextFetch : Prop :=
  ∀ (s t : State) (a : Byte) (r : Reg), s.params.Valid → Memory.wf s.mem → s.status = .run →
    reg a = some r → exec (.push a) s = .next t → t.status = .run → t.Fetchable →
    (s.reg .r7 - 1).toNat = t.pc →
    ∃ l, fetch t = .ok l ∧ l.op = (if r = .r7 then s.reg .r7 - 1 else s.reg r)

/-- A byte that a cycle of PUSH or CALL stores is seen by the fetch of the very next cycle at whichever
of the three fetch addresses it lies: as the opcode byte at PC, as operand A at PC + 1, as operand B at
PC + 2.  The byte is the register's value for PUSH and the return address for CALL (20_memory.md R42,
40_cycle.md R72, 43_stack.md R121, 44_control_transfer.md R131; that PUSH R7 stores the lowered SP is
decision D23, log entry 12; the three-byte fetch is decision D8, log entry 10). -/
def Obligations.StoredByteSeenByNextFetch : Prop :=
  ∀ (s t : State) (a : Byte) (r : Reg) (l : Latch), s.params.Valid → Memory.wf s.mem →
    s.status = .run → reg a = some r → step s = .next t → t.status = .run → fetch t = .ok l →
    (Fetches s (.push a) →
      ((s.reg .r7 - 1).toNat = t.pc → l.op = if r = .r7 then s.reg .r7 - 1 else s.reg r) ∧
      ((s.reg .r7 - 1).toNat = t.pc + 1 → l.a = if r = .r7 then s.reg .r7 - 1 else s.reg r) ∧
      ((s.reg .r7 - 1).toNat = t.pc + 2 → l.b = if r = .r7 then s.reg .r7 - 1 else s.reg r)) ∧
    (Fetches s (.call a) →
      ((s.reg .r7 - 1).toNat = t.pc → l.op.toNat = s.pc + 2) ∧
      ((s.reg .r7 - 1).toNat = t.pc + 1 → l.a.toNat = s.pc + 2) ∧
      ((s.reg .r7 - 1).toNat = t.pc + 2 → l.b.toNat = s.pc + 2))

/-- A stop request halts a running machine and changes nothing else; where the machine has stopped it
changes nothing (40_cycle.md R83; decision D20, log entry 8). -/
def Obligations.StopRequestOnlyHalts : Prop :=
  ∀ s : State,
    (s.status = .run → s.stopRequest = { s with status := .halt }) ∧
    (s.status ≠ .run → s.stopRequest = s)

/-! ### The invariant -/

/-- The reset state of every machine with allowed parameters, the default one among them, meets the
invariant. -/
def Obligations.ResetMeetsInvariant : Prop :=
  State.reset.Inv ∧ ∀ p : Params, p.Valid → (State.resetWith p).Inv

/-- Every step keeps the invariant: allowed parameters, canonical memory inside its bounds, PC at most
256, the error record full exactly in FAULT and its payload right (10_state.md R15, R20, R27;
20_memory.md R30; 60_exceptions.md R151, R152). -/
def Obligations.StepKeepsInvariant : Prop :=
  ∀ s t : State, s.Inv → step s = .next t → t.Inv

/-- Whatever image the host loads, however many ticks it delivers and whenever it sends a stop
request, the machine meets the invariant and keeps its parameters (70_reset_and_hazards.md R192). -/
def Obligations.ReachableMeetsInvariant : Prop :=
  ∀ (p : Params) (s : State), p.Valid → Reachable p s → s.Inv ∧ s.params = p
end

