-- ==== Sys2Proof/Laws/Decode.lean ====
section
/-! SUPPORT. The dispatch table, the decoder and the encoder. -/

namespace Sys2Proof

@[simp] theorem Mnemonic.mem_all (m : Mnemonic) : m ∈ Mnemonic.all := by cases m <;> decide

/-- A table entry of the dispatch is an enabled mnemonic with exactly that byte. -/
theorem dispatch_some {p : Params} {op : Byte} {m : Mnemonic} (h : dispatch p op = some m) :
    p.enabled m = true ∧ p.opcode m = op := by
  have := List.find?_some h
  simpa using this

theorem dispatch_none_iff (p : Params) (op : Byte) :
    dispatch p op = none ↔ ∀ m, p.enabled m = true → p.opcode m ≠ op := by
  simp [dispatch, List.find?_eq_none]

/-- On allowed parameters the byte of an enabled mnemonic dispatches to it. -/
theorem dispatch_opcode {p : Params} (hp : p.Valid) {m : Mnemonic} (he : p.enabled m = true) :
    dispatch p (p.opcode m) = some m := by
  cases h : dispatch p (p.opcode m) with
  | none => exact absurd rfl ((dispatch_none_iff p _).mp h m he)
  | some n =>
    obtain ⟨hn, ho⟩ := dispatch_some h
    rw [hp.2.1 n m hn he ho]

theorem Params.Valid.nops {p : Params} (hp : p.Valid) {m : Mnemonic} (he : p.enabled m = true) :
    nops (p.opcode m) = m.operandCount := hp.2.2.1 m he

theorem Params.enabled_of_not_option (p : Params) {m : Mnemonic} (h : m.isOption = false) :
    p.enabled m = true := by simp [Params.enabled, h]

theorem decode_ok {p : Params} {op a b : Byte} {m : Mnemonic} (h : dispatch p op = some m) :
    decode p op a b = .ok (instrOf a b m) := by simp [decode, h]

theorem decode_error {p : Params} {op a b : Byte} (h : dispatch p op = none) :
    decode p op a b = .error (.unknownOpcode op) := by simp [decode, h]

/-- Everything the decoder can answer. -/
theorem decode_cases (p : Params) (op a b : Byte) :
    (∃ m, dispatch p op = some m ∧ decode p op a b = .ok (instrOf a b m)) ∨
    (dispatch p op = none ∧ decode p op a b = .error (.unknownOpcode op)) := by
  cases h : dispatch p op with
  | none => exact .inr ⟨rfl, decode_error h⟩
  | some m => exact .inl ⟨m, rfl, decode_ok h⟩

@[simp] theorem instrOf_mnemonic (a b : Byte) (m : Mnemonic) : (instrOf a b m).mnemonic = m := by
  cases m <;> rfl

@[simp] theorem Instr.operandBytes_length (i : Instr) :
    i.operandBytes.length = i.mnemonic.operandCount := by cases i <;> rfl

/-! ### The default parameters are allowed ones -/

theorem OpcodeMap.default_injective (m n : Mnemonic)
    (h : OpcodeMap.default.byte m = OpcodeMap.default.byte n) : m = n := by
  have key : ∀ m ∈ Mnemonic.all, ∀ n ∈ Mnemonic.all,
      OpcodeMap.default.byte m = OpcodeMap.default.byte n → m = n := by decide
  exact key m (by simp) n (by simp) h

/-- The default parameters are allowed ones (00_scope.md R2, 30_encoding.md R56), with the option off
or on, for every memory size and initial stack pointer in range. -/
theorem Params.valid_of_default_opc {p : Params} (ho : p.opc = OpcodeMap.default)
    (hm : 1 ≤ p.memSize ∧ p.memSize ≤ 256) : p.Valid := by
  refine ⟨hm, fun m n _ _ h => ?_, fun m _ => ?_, fun m _ => ?_⟩
  · rw [Params.opcode, Params.opcode, ho] at h
    exact OpcodeMap.default_injective m n h
  · rw [Params.opcode, ho]; cases m <;> rfl
  · rw [Params.opcode, ho]; cases m <;> rfl

theorem Params.default_valid : Params.default.Valid :=
  Params.valid_of_default_opc rfl (by decide)

end Sys2Proof
end

