-- ==== Sys2Proof/Laws/State.lean ====
section
/-! SUPPORT. One lemma per field per update of State, and the read-after-write law of the register
file, so that no proof unfolds a record update. -/

namespace Sys2Proof.Machine

open Sys2Proof

/-! ### The register file -/

@[simp] theorem RegFile.get_set_same (f : RegFile) (r : Reg) (v : Byte) : (f.set r v).get r = v := by
  cases r <;> rfl

theorem RegFile.get_set_ne (f : RegFile) {r q : Reg} (h : q ≠ r) (v : Byte) :
    (f.set r v).get q = f.get q := by
  cases r <;> cases q <;> first | rfl | exact absurd rfl h

theorem RegFile.get_set (f : RegFile) (r q : Reg) (v : Byte) :
    (f.set r v).get q = if q = r then v else f.get q := by
  by_cases h : q = r
  · subst h; simp
  · simp [h, RegFile.get_set_ne]

theorem RegFile.ext_get {f g : RegFile} (h : ∀ r, f.get r = g.get r) : f = g := by
  cases f; cases g
  simp only [RegFile.mk.injEq]
  exact ⟨h .r0, h .r1, h .r2, h .r3, h .r4, h .r5, h .r6, h .r7⟩

/-! ### setReg -/

@[simp] theorem State.setReg_reg_same (s : State) (r : Reg) (v : Byte) : (s.setReg r v).reg r = v :=
  RegFile.get_set_same ..
theorem State.setReg_reg (s : State) (r q : Reg) (v : Byte) :
    (s.setReg r v).reg q = if q = r then v else s.reg q := RegFile.get_set ..
theorem State.setReg_reg_ne (s : State) {r q : Reg} (h : q ≠ r) (v : Byte) :
    (s.setReg r v).reg q = s.reg q := RegFile.get_set_ne _ h _
@[simp] theorem State.setReg_pc (s : State) (r : Reg) (v : Byte) : (s.setReg r v).pc = s.pc := rfl
@[simp] theorem State.setReg_fl (s : State) (r : Reg) (v : Byte) : (s.setReg r v).fl = s.fl := rfl
@[simp] theorem State.setReg_status (s : State) (r : Reg) (v : Byte) :
    (s.setReg r v).status = s.status := rfl
@[simp] theorem State.setReg_err (s : State) (r : Reg) (v : Byte) : (s.setReg r v).err = s.err := rfl
@[simp] theorem State.setReg_mem (s : State) (r : Reg) (v : Byte) : (s.setReg r v).mem = s.mem := rfl
@[simp] theorem State.setReg_out (s : State) (r : Reg) (v : Byte) : (s.setReg r v).out = s.out := rfl
@[simp] theorem State.setReg_params (s : State) (r : Reg) (v : Byte) :
    (s.setReg r v).params = s.params := rfl

/-! ### decSp and incSp -/

theorem trunc8_toNat (v : Int) : (trunc8 v).toNat = (v % 256).toNat := by
  simp [trunc8, BitVec.toNat_ofInt]

theorem trunc8_natCast (n : Nat) : trunc8 (n : Int) = BitVec.ofNat 8 n := by
  apply BitVec.eq_of_toNat_eq
  rw [trunc8_toNat, BitVec.toNat_ofNat]
  omega

theorem trunc8_sub_one (x : Byte) : trunc8 (x.toNat - 1) = x - 1#8 := by
  apply BitVec.eq_of_toNat_eq
  have := x.isLt
  rw [trunc8_toNat, BitVec.toNat_sub]
  simp only [BitVec.toNat_ofNat]
  omega

theorem trunc8_add_one (x : Byte) : trunc8 (x.toNat + 1) = x + 1#8 := by
  apply BitVec.eq_of_toNat_eq
  rw [trunc8_toNat, BitVec.toNat_add]
  simp only [BitVec.toNat_ofNat]
  omega

@[simp] theorem State.sp_eq (s : State) : s.sp = s.reg .r7 := rfl
theorem State.decSp_eq (s : State) : s.decSp = s.setReg .r7 (s.reg .r7 - 1#8) := by
  simp [State.decSp, spReg, trunc8_sub_one]
theorem State.incSp_eq (s : State) : s.incSp = s.setReg .r7 (s.reg .r7 + 1#8) := by
  simp [State.incSp, spReg, trunc8_add_one]
@[simp] theorem State.decSp_sp (s : State) : s.decSp.reg .r7 = s.reg .r7 - 1#8 := by
  simp [State.decSp_eq]
@[simp] theorem State.incSp_sp (s : State) : s.incSp.reg .r7 = s.reg .r7 + 1#8 := by
  simp [State.incSp_eq]
theorem State.decSp_reg_ne (s : State) {q : Reg} (h : q ≠ .r7) : s.decSp.reg q = s.reg q :=
  State.setReg_reg_ne s h _
theorem State.incSp_reg_ne (s : State) {q : Reg} (h : q ≠ .r7) : s.incSp.reg q = s.reg q :=
  State.setReg_reg_ne s h _
@[simp] theorem State.decSp_pc (s : State) : s.decSp.pc = s.pc := rfl
@[simp] theorem State.decSp_fl (s : State) : s.decSp.fl = s.fl := rfl
@[simp] theorem State.decSp_status (s : State) : s.decSp.status = s.status := rfl
@[simp] theorem State.decSp_err (s : State) : s.decSp.err = s.err := rfl
@[simp] theorem State.decSp_mem (s : State) : s.decSp.mem = s.mem := rfl
@[simp] theorem State.decSp_out (s : State) : s.decSp.out = s.out := rfl
@[simp] theorem State.decSp_params (s : State) : s.decSp.params = s.params := rfl
@[simp] theorem State.incSp_pc (s : State) : s.incSp.pc = s.pc := rfl
@[simp] theorem State.incSp_fl (s : State) : s.incSp.fl = s.fl := rfl
@[simp] theorem State.incSp_status (s : State) : s.incSp.status = s.status := rfl
@[simp] theorem State.incSp_err (s : State) : s.incSp.err = s.err := rfl
@[simp] theorem State.incSp_mem (s : State) : s.incSp.mem = s.mem := rfl
@[simp] theorem State.incSp_out (s : State) : s.incSp.out = s.out := rfl
@[simp] theorem State.incSp_params (s : State) : s.incSp.params = s.params := rfl

/-! ### setPc and advance -/

@[simp] theorem State.setPc_reg (s : State) (n : Nat) (q : Reg) : (s.setPc n).reg q = s.reg q := rfl
@[simp] theorem State.setPc_regs (s : State) (n : Nat) : (s.setPc n).regs = s.regs := rfl
@[simp] theorem State.setPc_pc (s : State) (n : Nat) : (s.setPc n).pc = n := rfl
@[simp] theorem State.setPc_fl (s : State) (n : Nat) : (s.setPc n).fl = s.fl := rfl
@[simp] theorem State.setPc_status (s : State) (n : Nat) : (s.setPc n).status = s.status := rfl
@[simp] theorem State.setPc_err (s : State) (n : Nat) : (s.setPc n).err = s.err := rfl
@[simp] theorem State.setPc_mem (s : State) (n : Nat) : (s.setPc n).mem = s.mem := rfl
@[simp] theorem State.setPc_out (s : State) (n : Nat) : (s.setPc n).out = s.out := rfl
@[simp] theorem State.setPc_params (s : State) (n : Nat) : (s.setPc n).params = s.params := rfl

@[simp] theorem State.advance_reg (s : State) (m : Mnemonic) (q : Reg) :
    (s.advance m).reg q = s.reg q := rfl
@[simp] theorem State.advance_regs (s : State) (m : Mnemonic) : (s.advance m).regs = s.regs := rfl
@[simp] theorem State.advance_pc (s : State) (m : Mnemonic) :
    (s.advance m).pc = s.pc + 1 + nops (s.params.opcode m) := rfl
@[simp] theorem State.advance_fl (s : State) (m : Mnemonic) : (s.advance m).fl = s.fl := rfl
@[simp] theorem State.advance_status (s : State) (m : Mnemonic) :
    (s.advance m).status = s.status := rfl
@[simp] theorem State.advance_err (s : State) (m : Mnemonic) : (s.advance m).err = s.err := rfl
@[simp] theorem State.advance_mem (s : State) (m : Mnemonic) : (s.advance m).mem = s.mem := rfl
@[simp] theorem State.advance_out (s : State) (m : Mnemonic) : (s.advance m).out = s.out := rfl
@[simp] theorem State.advance_params (s : State) (m : Mnemonic) :
    (s.advance m).params = s.params := rfl

/-! ### setStatus, setFl, emit -/

@[simp] theorem State.setStatus_reg (s : State) (v : Status) (q : Reg) :
    (s.setStatus v).reg q = s.reg q := rfl
@[simp] theorem State.setStatus_regs (s : State) (v : Status) : (s.setStatus v).regs = s.regs := rfl
@[simp] theorem State.setStatus_pc (s : State) (v : Status) : (s.setStatus v).pc = s.pc := rfl
@[simp] theorem State.setStatus_fl (s : State) (v : Status) : (s.setStatus v).fl = s.fl := rfl
@[simp] theorem State.setStatus_status (s : State) (v : Status) : (s.setStatus v).status = v := rfl
@[simp] theorem State.setStatus_err (s : State) (v : Status) : (s.setStatus v).err = s.err := rfl
@[simp] theorem State.setStatus_mem (s : State) (v : Status) : (s.setStatus v).mem = s.mem := rfl
@[simp] theorem State.setStatus_out (s : State) (v : Status) : (s.setStatus v).out = s.out := rfl
@[simp] theorem State.setStatus_params (s : State) (v : Status) :
    (s.setStatus v).params = s.params := rfl

@[simp] theorem State.setFl_reg (s : State) (v : Flags) (q : Reg) : (s.setFl v).reg q = s.reg q := rfl
@[simp] theorem State.setFl_regs (s : State) (v : Flags) : (s.setFl v).regs = s.regs := rfl
@[simp] theorem State.setFl_pc (s : State) (v : Flags) : (s.setFl v).pc = s.pc := rfl
@[simp] theorem State.setFl_fl (s : State) (v : Flags) : (s.setFl v).fl = v := rfl
@[simp] theorem State.setFl_status (s : State) (v : Flags) : (s.setFl v).status = s.status := rfl
@[simp] theorem State.setFl_err (s : State) (v : Flags) : (s.setFl v).err = s.err := rfl
@[simp] theorem State.setFl_mem (s : State) (v : Flags) : (s.setFl v).mem = s.mem := rfl
@[simp] theorem State.setFl_out (s : State) (v : Flags) : (s.setFl v).out = s.out := rfl
@[simp] theorem State.setFl_params (s : State) (v : Flags) : (s.setFl v).params = s.params := rfl

@[simp] theorem State.emit_reg (s : State) (v : Byte) (q : Reg) : (s.emit v).reg q = s.reg q := rfl
@[simp] theorem State.emit_regs (s : State) (v : Byte) : (s.emit v).regs = s.regs := rfl
@[simp] theorem State.emit_pc (s : State) (v : Byte) : (s.emit v).pc = s.pc := rfl
@[simp] theorem State.emit_fl (s : State) (v : Byte) : (s.emit v).fl = s.fl := rfl
@[simp] theorem State.emit_status (s : State) (v : Byte) : (s.emit v).status = s.status := rfl
@[simp] theorem State.emit_err (s : State) (v : Byte) : (s.emit v).err = s.err := rfl
@[simp] theorem State.emit_mem (s : State) (v : Byte) : (s.emit v).mem = s.mem := rfl
@[simp] theorem State.emit_out (s : State) (v : Byte) : (s.emit v).out = s.out ++ [v] := rfl
@[simp] theorem State.emit_params (s : State) (v : Byte) : (s.emit v).params = s.params := rfl

/-! ### takeFatal -/

@[simp] theorem takeFatal_reg (e : FatalError) (s : State) (q : Reg) :
    (takeFatal e s).reg q = s.reg q := rfl
@[simp] theorem takeFatal_regs (e : FatalError) (s : State) : (takeFatal e s).regs = s.regs := rfl
@[simp] theorem takeFatal_pc (e : FatalError) (s : State) : (takeFatal e s).pc = s.pc := rfl
@[simp] theorem takeFatal_fl (e : FatalError) (s : State) : (takeFatal e s).fl = s.fl := rfl
@[simp] theorem takeFatal_status (e : FatalError) (s : State) : (takeFatal e s).status = .fault := rfl
@[simp] theorem takeFatal_err (e : FatalError) (s : State) : (takeFatal e s).err = some e := rfl
@[simp] theorem takeFatal_mem (e : FatalError) (s : State) : (takeFatal e s).mem = s.mem := rfl
@[simp] theorem takeFatal_out (e : FatalError) (s : State) : (takeFatal e s).out = s.out := rfl
@[simp] theorem takeFatal_params (e : FatalError) (s : State) : (takeFatal e s).params = s.params := rfl

end Sys2Proof.Machine
end

