-- ==== Sys2Proof/Laws/Memory.lean ====
section
/-! SUPPORT. Memory: read after write, and the canonical form that every operation keeps. -/

namespace Sys2Proof.Machine

open Sys2Proof

@[simp] theorem Memory.read_nil (a : Nat) : Memory.read [] a = Memory.unlisted := rfl

theorem Memory.read_cons_same (a : Nat) (v : Byte) (rest : Memory)
    (h : Memory.read rest a = Memory.unlisted) : Memory.read (Memory.cons a v rest) a = v := by
  unfold Memory.cons
  split
  · rename_i hv
    rw [h, hv]
  · simp [Memory.read]

theorem Memory.read_cons_ne {a b : Nat} (h : b ≠ a) (v : Byte) (rest : Memory) :
    Memory.read (Memory.cons a v rest) b = Memory.read rest b := by
  unfold Memory.cons
  split
  · rfl
  · simp [Memory.read, h]

/-- An address below every listed one reads as unlisted. -/
theorem Memory.read_below {m : Memory} {a : Nat} (h : ∀ c ∈ m, a < c.1) :
    Memory.read m a = Memory.unlisted := by
  induction m with
  | nil => rfl
  | cons c rest ih =>
    have hc : a < c.1 := h c (by simp)
    have : a ≠ c.1 := by omega
    simp only [Memory.read, this, if_false]
    exact ih fun d hd => h d (by simp [hd])

/-- Every address of the written memory is the written one or was listed before. -/
theorem Memory.mem_write {m : Memory} {a : Nat} {v : Byte} {c : Host.Cell}
    (h : c ∈ Memory.write m a v) : c = (a, v) ∨ c ∈ m := by
  have key : ∀ {rest : Memory}, c ∈ Memory.cons a v rest → c = (a, v) ∨ c ∈ rest := by
    intro rest hc
    unfold Memory.cons at hc
    split at hc
    · exact .inr hc
    · simpa using hc
  induction m with
  | nil => exact key h
  | cons d rest ih =>
    simp only [Memory.write] at h
    split at h
    · exact key h
    · split at h
      · rcases key h with h' | h'
        · exact .inl h'
        · exact .inr (by simp [h'])
      · rcases List.mem_cons.mp h with h' | h'
        · exact .inr (by simp [h'])
        · rcases ih h' with h'' | h''
          · exact .inl h''
          · exact .inr (by simp [h''])

/-- Writing keeps the canonical form. -/
theorem Memory.write_wf {m : Memory} (h : Memory.wf m) (a : Nat) (v : Byte) :
    Memory.wf (Memory.write m a v) := by
  have key : ∀ {rest : Memory}, Memory.wf rest → (∀ c ∈ rest, a < c.1) →
      Memory.wf (Memory.cons a v rest) := by
    intro rest hr hb
    unfold Memory.cons
    split
    · exact hr
    · rename_i hv
      refine ⟨List.pairwise_cons.mpr ⟨hb, hr.1⟩, ?_⟩
      intro c hc
      rcases List.mem_cons.mp hc with h' | h'
      · subst h'; exact hv
      · exact hr.2 c h'
  induction m with
  | nil => exact key h (by simp)
  | cons d rest ih =>
    obtain ⟨hp, hn⟩ := h
    have hp' := List.pairwise_cons.mp hp
    have hrest : Memory.wf rest := ⟨hp'.2, fun c hc => hn c (by simp [hc])⟩
    simp only [Memory.write]
    split
    · rename_i hlt
      refine key ⟨hp, hn⟩ fun c hc => ?_
      rcases List.mem_cons.mp hc with h' | h'
      · subst h'; exact hlt
      · exact Nat.lt_trans hlt (hp'.1 c h')
    · split
      · rename_i heq
        subst heq
        exact key hrest hp'.1
      · rename_i hlt hne
        have ih' := ih hrest
        refine ⟨List.pairwise_cons.mpr ⟨fun c hc => ?_, ih'.1⟩, fun c hc => ?_⟩
        · rcases Memory.mem_write hc with h' | h'
          · subst h'
            show d.1 < a
            omega
          · exact hp'.1 c h'
        · rcases List.mem_cons.mp hc with h' | h'
          · subst h'; exact hn _ (by simp)
          · exact ih'.2 c h'

/-- The byte just written is the byte read. -/
theorem Memory.read_write_same {m : Memory} (h : Memory.wf m) (a : Nat) (v : Byte) :
    Memory.read (Memory.write m a v) a = v := by
  induction m with
  | nil => exact Memory.read_cons_same a v [] rfl
  | cons d rest ih =>
    obtain ⟨hp, hn⟩ := h
    have hp' := List.pairwise_cons.mp hp
    simp only [Memory.write]
    split
    · rename_i hlt
      apply Memory.read_cons_same
      apply Memory.read_below
      intro c hc
      rcases List.mem_cons.mp hc with h' | h'
      · subst h'; exact hlt
      · exact Nat.lt_trans hlt (hp'.1 c h')
    · split
      · rename_i heq
        subst heq
        exact Memory.read_cons_same _ _ _ (Memory.read_below hp'.1)
      · rename_i hne
        simp only [Memory.read, hne, if_false]
        exact ih ⟨hp'.2, fun c hc => hn c (by simp [hc])⟩

/-- A write leaves every other address alone. -/
theorem Memory.read_write_ne {a b : Nat} (h : b ≠ a) (m : Memory) (v : Byte) :
    Memory.read (Memory.write m a v) b = Memory.read m b := by
  induction m with
  | nil => exact Memory.read_cons_ne h v []
  | cons d rest ih =>
    simp only [Memory.write]
    split
    · exact Memory.read_cons_ne h v _
    · split
      · rename_i heq
        subst heq
        rw [Memory.read_cons_ne h]
        simp [Memory.read, h]
      · simp only [Memory.read]
        split
        · rfl
        · exact ih

/-- Writing inside memory lists no address outside it. -/
theorem Memory.write_bound {m : Memory} {n a : Nat} (h : ∀ c ∈ m, c.1 < n) (ha : a < n) (v : Byte) :
    ∀ c ∈ Memory.write m a v, c.1 < n := by
  intro c hc
  rcases Memory.mem_write hc with h' | h'
  · subst h'; exact ha
  · exact h c h'

/-- The loader keeps the canonical form. -/
theorem loadImage_wf (img : List Byte) {m : Memory} (h : Memory.wf m) (a : Nat) :
    Memory.wf (loadImage m a img) := by
  induction img generalizing m a with
  | nil => exact h
  | cons v rest ih => exact ih (Memory.write_wf h a v) _

/-- The loader writes no address from `n` on, where the image ends at or before `n`. -/
theorem loadImage_bound (img : List Byte) {m : Memory} {n : Nat} (h : ∀ c ∈ m, c.1 < n) (a : Nat)
    (hl : a + img.length ≤ n) : ∀ c ∈ loadImage m a img, c.1 < n := by
  induction img generalizing m a with
  | nil => exact h
  | cons v rest ih =>
    simp only [List.length_cons] at hl
    exact ih (Memory.write_bound h (by omega) v) (a + 1) (by omega)

/-- Placing a byte for the next fetch keeps the canonical form. -/
theorem placeByte_wf (n : Nat) {m : Memory} (h : Memory.wf m) (a : Nat) (v : Byte) :
    Memory.wf (placeByte n m a v) := by
  unfold placeByte
  split
  · exact Memory.write_wf h a v
  · exact h

/-- Reset memory is in the canonical form. -/
theorem resetWith_mem_wf (p : Params) : Memory.wf (State.resetWith p).mem := by
  show Memory.wf []
  exact ⟨List.Pairwise.nil, by simp⟩

end Sys2Proof.Machine
end

