-- ==== Sys2Proof/Laws/Ops.lean ====
section
/-! SUPPORT. The shared operations: register operands, memory accesses with their fatal errors, the
flags, the ALU. -/

namespace Sys2Proof.Machine

open Sys2Proof

/-! ### Register operands -/

theorem reg_isSome (o : Byte) : (reg o).isSome = isRegIndex o := by
  revert o; decide

theorem reg_eq_none_iff (o : Byte) : reg o = none ↔ isRegIndex o = false := by
  rw [← reg_isSome]; cases reg o <;> simp

theorem exists_reg_iff (o : Byte) : (∃ r, reg o = some r) ↔ isRegIndex o = true := by
  rw [← reg_isSome]; cases reg o <;> simp

@[simp] theorem withReg_some {o : Byte} {r : Reg} (h : reg o = some r) (k : Reg → Result) :
    withReg o k = k r := by
  simp [withReg, h]

@[simp] theorem withReg_none {o : Byte} (h : reg o = none) (k : Reg → Result) :
    withReg o k = .refused .invalidRegisterIndex := by
  simp [withReg, h]

/-- Where the resolution of a register operand leads: into the continuation, or to the refusal. -/
theorem withReg_cases (o : Byte) (k : Reg → Result) :
    (∃ r, reg o = some r ∧ withReg o k = k r) ∨
    (reg o = none ∧ withReg o k = .refused .invalidRegisterIndex) := by
  cases h : reg o with
  | none => exact .inr ⟨rfl, withReg_none h k⟩
  | some r => exact .inl ⟨r, rfl, withReg_some h k⟩

theorem withReg_next {o : Byte} {k : Reg → Result} {t : State} (h : withReg o k = .next t) :
    ∃ r, reg o = some r ∧ k r = .next t := by
  rcases withReg_cases o k with ⟨r, hr, e⟩ | ⟨-, e⟩
  · exact ⟨r, hr, e ▸ h⟩
  · rw [e] at h; cases h

theorem withReg_refused {o : Byte} {k : Reg → Result} {e : Refusal} (h : withReg o k = .refused e) :
    (reg o = none ∧ e = .invalidRegisterIndex) ∨ ∃ r, reg o = some r ∧ k r = .refused e := by
  rcases withReg_cases o k with ⟨r, hr, e'⟩ | ⟨hn, e'⟩
  · exact .inr ⟨r, hr, e' ▸ h⟩
  · rw [e'] at h; cases h; exact .inl ⟨hn, rfl⟩

/-! ### Memory accesses -/

theorem memRead_ok {s : State} {a : Nat} (h : a < s.params.memSize) :
    memRead s a = .ok (Memory.read s.mem a) := by simp [memRead, h]

theorem memRead_error {s : State} {a : Nat} (h : s.params.memSize ≤ a) :
    memRead s a = .error (.outOfBoundsAccess a) := by simp [memRead, Nat.not_lt.mpr h]

theorem memWrite_ok {s : State} {a : Nat} (h : a < s.params.memSize) (v : Byte) :
    memWrite s a v = .ok { s with mem := Memory.write s.mem a v } := by simp [memWrite, h]

theorem memWrite_error {s : State} {a : Nat} (h : s.params.memSize ≤ a) (v : Byte) :
    memWrite s a v = .error (.outOfBoundsAccess a) := by simp [memWrite, Nat.not_lt.mpr h]

@[simp] theorem orFatal_ok {α : Type} (s : State) (v : α) (k : α → Result) :
    orFatal s (.ok v) k = k v := rfl

@[simp] theorem orFatal_error {α : Type} (s : State) (e : FatalError) (k : α → Result) :
    orFatal s (.error e) k = .next (takeFatal e s) := rfl

/-- Everything a load inside a cycle can do. -/
theorem orFatal_memRead_next {start s : State} {a : Nat} {k : Byte → Result} {t : State}
    (h : orFatal start (memRead s a) k = .next t) :
    (a < s.params.memSize ∧ k (Memory.read s.mem a) = .next t) ∨
    (s.params.memSize ≤ a ∧ t = takeFatal (.outOfBoundsAccess a) start) := by
  by_cases ha : a < s.params.memSize
  · rw [memRead_ok ha] at h; exact .inl ⟨ha, h⟩
  · rw [memRead_error (Nat.le_of_not_lt ha)] at h
    cases h; exact .inr ⟨Nat.le_of_not_lt ha, rfl⟩

/-- Everything a store inside a cycle can do. -/
theorem orFatal_memWrite_next {start s : State} {a : Nat} {v : Byte} {k : State → Result} {t : State}
    (h : orFatal start (memWrite s a v) k = .next t) :
    (a < s.params.memSize ∧ k { s with mem := Memory.write s.mem a v } = .next t) ∨
    (s.params.memSize ≤ a ∧ t = takeFatal (.outOfBoundsAccess a) start) := by
  by_cases ha : a < s.params.memSize
  · rw [memWrite_ok ha] at h; exact .inl ⟨ha, h⟩
  · rw [memWrite_error (Nat.le_of_not_lt ha)] at h
    cases h; exact .inr ⟨Nat.le_of_not_lt ha, rfl⟩

/-- A successful store keeps the canonical form. -/
theorem memWrite_wf {s t : State} (h : Memory.wf s.mem) {a : Nat} {v : Byte}
    (e : memWrite s a v = .ok t) : Memory.wf t.mem := by
  by_cases ha : a < s.params.memSize
  · rw [memWrite_ok ha] at e; cases e; exact Memory.write_wf h a v
  · rw [memWrite_error (Nat.le_of_not_lt ha)] at e; cases e

/-! ### Flags -/

theorem compareFlags_ne_none (x y : Byte) : compareFlags x y ≠ .none := by
  unfold compareFlags; split
  · simp
  · split <;> simp

/-! ### The ALU -/

theorem mulResult_eq (x y : Byte) : mulResult x y = x * y := by
  apply BitVec.eq_of_toNat_eq
  have e : ((x.toNat : Int) * (y.toNat : Int)) = ((x.toNat * y.toNat : Nat) : Int) := by push_cast; rfl
  rw [mulResult, e, trunc8_natCast, BitVec.toNat_mul, BitVec.toNat_ofNat]

theorem addResult_eq (x y : Byte) : addResult x y = x + y := by
  apply BitVec.eq_of_toNat_eq
  rw [addResult, trunc8_toNat, BitVec.toNat_add]
  omega

theorem subResult_eq (x y : Byte) : subResult x y = x - y := by
  apply BitVec.eq_of_toNat_eq
  have := x.isLt
  have := y.isLt
  rw [subResult, trunc8_toNat, BitVec.toNat_sub]
  omega

theorem divResult_toNat (x y : Byte) : (divResult x y).toNat = x.toNat / y.toNat := by
  have := x.isLt
  have := Nat.div_le_self x.toNat y.toNat
  rw [divResult, trunc8_natCast, BitVec.toNat_ofNat]
  exact Nat.mod_eq_of_lt (Nat.lt_of_le_of_lt this ‹_›)

theorem modResult_toNat (x y : Byte) : (modResult x y).toNat = x.toNat % y.toNat := by
  have hx := x.isLt
  have hm := Nat.mod_le x.toNat y.toNat
  have hd : y.toNat * (x.toNat / y.toNat) + x.toNat % y.toNat = x.toNat := Nat.div_add_mod _ _
  have e : ((x.toNat : Int) - (y.toNat : Int) * ((x.toNat / y.toNat : Nat) : Int))
      = ((x.toNat % y.toNat : Nat) : Int) := by
    have : ((y.toNat * (x.toNat / y.toNat) + x.toNat % y.toNat : Nat) : Int) = (x.toNat : Int) := by
      exact_mod_cast hd
    push_cast at this ⊢
    omega
  rw [modResult, e, trunc8_natCast, BitVec.toNat_ofNat]
  exact Nat.mod_eq_of_lt (Nat.lt_of_le_of_lt hm hx)

/-- The ALU never touches PC, memory, the output channel, the run latch, the error record or the
parameters (42_alu.md R100, 40_cycle.md R81). -/
theorem alu_frame {op : AluOp} {r q : Reg} {s t : State} (h : alu op r q s = .ok t) :
    t.pc = s.pc ∧ t.mem = s.mem ∧ t.out = s.out ∧ t.status = s.status ∧ t.err = s.err ∧
      t.params = s.params := by
  cases op <;> simp only [alu] at h
  case div | mod =>
    split at h
    · cases h
    · cases h; exact ⟨rfl, rfl, rfl, rfl, rfl, rfl⟩
  all_goals cases h; exact ⟨rfl, rfl, rfl, rfl, rfl, rfl⟩

/-- The ALU writes either its first register or FL, never both (42_alu.md R100). -/
theorem alu_writes {op : AluOp} {r q : Reg} {s t : State} (h : alu op r q s = .ok t) :
    (op = .cmp ∧ t.regs = s.regs ∧ t.fl = compareFlags (s.reg r) (s.reg q)) ∨
    (op ≠ .cmp ∧ t.fl = s.fl ∧ ∀ p, p ≠ r → t.reg p = s.reg p) := by
  cases op <;> simp only [alu] at h
  case cmp => cases h; exact .inl ⟨rfl, rfl, rfl⟩
  case div | mod =>
    split at h
    · cases h
    · cases h; exact .inr ⟨by simp, rfl, fun p hp => State.setReg_reg_ne _ hp _⟩
  all_goals cases h; exact .inr ⟨by simp, rfl, fun p hp => State.setReg_reg_ne _ hp _⟩

/-- Everything an ALU instruction can do when it answers a next state. -/
theorem aluCycle_next {op : AluOp} {m : Mnemonic} {a b : Byte} {s t : State}
    (h : aluCycle op m a b s = .next t) :
    ∃ r q u, reg a = some r ∧ reg b = some q ∧ alu op r q s = .ok u ∧ t = u.advance m := by
  obtain ⟨r, hr, h⟩ := withReg_next h
  obtain ⟨q, hq, h⟩ := withReg_next h
  cases hu : alu op r q s with
  | error e => rw [hu] at h; cases h
  | ok u => rw [hu] at h; cases h; exact ⟨r, q, u, hr, hq, hu, rfl⟩

/-- The cycle of an ALU instruction whose operands name registers. -/
theorem aluCycle_ok {op : AluOp} {m : Mnemonic} {a b : Byte} {r q : Reg} {s u : State}
    (ha : reg a = some r) (hb : reg b = some q) (hu : alu op r q s = .ok u) :
    aluCycle op m a b s = .next (u.advance m) := by
  simp [aluCycle, withReg_some ha, withReg_some hb, hu]

end Sys2Proof.Machine
end

