-- ==== Sys2Proof/Laws/Step.lean ====
section
/-! SUPPORT. Fetch and step: what each can answer. -/

namespace Sys2Proof.Machine

open Sys2Proof

/-- Inside memory the fetch latches the three bytes from PC on. -/
theorem fetch_ok {s : State} (h : s.Fetchable) :
    fetch s = .ok { op := Memory.read s.mem s.pc, a := Memory.read s.mem (s.pc + 1),
                    b := Memory.read s.mem (s.pc + 2) } := by
  unfold State.Fetchable at h
  simp [fetch, memRead_ok (show s.pc < s.params.memSize by omega),
    memRead_ok (show s.pc + 1 < s.params.memSize by omega), memRead_ok h]

/-- Everything the fetch can answer: the latch, or the first address outside memory. -/
theorem fetch_cases (s : State) :
    (s.Fetchable ∧ fetch s = .ok { op := Memory.read s.mem s.pc, a := Memory.read s.mem (s.pc + 1),
                                    b := Memory.read s.mem (s.pc + 2) }) ∨
    (∃ k, k ≤ 2 ∧ s.params.memSize ≤ s.pc + k ∧ (∀ j, j < k → s.pc + j < s.params.memSize) ∧
      fetch s = .error (.outOfBoundsAccess (s.pc + k))) := by
  by_cases h0 : s.pc < s.params.memSize
  · by_cases h1 : s.pc + 1 < s.params.memSize
    · by_cases h2 : s.pc + 2 < s.params.memSize
      · exact .inl ⟨h2, fetch_ok h2⟩
      · refine .inr ⟨2, by omega, by omega, fun j hj => by omega, ?_⟩
        simp [fetch, memRead_ok h0, memRead_ok h1, memRead_error (Nat.le_of_not_lt h2)]
    · refine .inr ⟨1, by omega, by omega, fun j hj => by omega, ?_⟩
      simp [fetch, memRead_ok h0, memRead_error (Nat.le_of_not_lt h1)]
  · refine .inr ⟨0, by omega, by omega, fun j hj => by omega, ?_⟩
    simp [fetch, memRead_error (Nat.le_of_not_lt h0)]

theorem step_of_not_run {s : State} (h : s.status ≠ .run) : step s = .next s := by
  cases e : s.status <;> simp_all [step]

theorem step_run {s : State} (h : s.status = .run) :
    step s = orFatal s (fetch s) fun l =>
      match decode s.params l.op l.a l.b with
      | .error (.unknownOpcode op) => .next (takeFatal (.unknownOpcode s.pc op) s)
      | .ok i => exec i s := by
  cases s; cases h; rfl

/-- Everything a step can do: nothing when the clock is stopped; the fatal error of the fetch; the
fatal error of an undefined opcode; or the meaning of the instruction it fetched. -/
theorem step_cases (s : State) :
    (s.status ≠ .run ∧ step s = .next s) ∨
    (s.status = .run ∧ ∃ k, k ≤ 2 ∧ s.params.memSize ≤ s.pc + k ∧
      step s = .next (takeFatal (.outOfBoundsAccess (s.pc + k)) s)) ∨
    (s.status = .run ∧ s.Fetchable ∧ dispatch s.params (Memory.read s.mem s.pc) = none ∧
      step s = .next (takeFatal (.unknownOpcode s.pc (Memory.read s.mem s.pc)) s)) ∨
    (s.status = .run ∧ s.Fetchable ∧ ∃ m, dispatch s.params (Memory.read s.mem s.pc) = some m ∧
      Fetches s (instrOf (Memory.read s.mem (s.pc + 1)) (Memory.read s.mem (s.pc + 2)) m) ∧
      step s = exec (instrOf (Memory.read s.mem (s.pc + 1)) (Memory.read s.mem (s.pc + 2)) m) s) := by
  by_cases hr : s.status = .run
  · rcases fetch_cases s with ⟨hf, e⟩ | ⟨k, hk, hb, -, e⟩
    · cases hd : dispatch s.params (Memory.read s.mem s.pc) with
      | none =>
        refine .inr (.inr (.inl ⟨hr, hf, rfl, ?_⟩))
        rw [step_run hr, e]
        simp only [orFatal_ok, decode_error hd]
      | some m =>
        refine .inr (.inr (.inr ⟨hr, hf, m, rfl, ⟨_, e, decode_ok hd⟩, ?_⟩))
        rw [step_run hr, e]
        simp only [orFatal_ok, decode_ok hd]
    · refine .inr (.inl ⟨hr, k, hk, hb, ?_⟩)
      rw [step_run hr, e, orFatal_error]
  · exact .inl ⟨hr, step_of_not_run hr⟩

theorem FaultedFrom.takeFatal (e : FatalError) (s : State) : FaultedFrom e s (takeFatal e s) :=
  ⟨rfl, rfl, rfl, rfl, rfl, rfl, rfl, rfl⟩

theorem FaultedFrom.eq {e : FatalError} {s t : State} (h : FaultedFrom e s t) :
    t = Machine.takeFatal e s := by
  obtain ⟨h1, h2, h3, h4, h5, h6, h7, h8⟩ := h
  cases t; simp_all [Machine.takeFatal]

end Sys2Proof.Machine
end

