-- ==== Sys2Proof/Laws/Exec.lean ====
section
/-! SUPPORT. Each meaning inverted once: when it answers a next state, which state that is; and, from
these, what any instruction can do. -/

namespace Sys2Proof.Machine

open Sys2Proof

/-! ### One inversion lemma per meaning -/

theorem execLdi_next {a imm : Byte} {s t : State} (h : execLdi a imm s = .next t) :
    ∃ r, reg a = some r ∧ t = (s.setReg r imm).advance .ldi := by
  obtain ⟨r, hr, h⟩ := withReg_next h
  cases h; exact ⟨r, hr, rfl⟩

theorem execPrn_next {a : Byte} {s t : State} (h : execPrn a s = .next t) :
    ∃ r, reg a = some r ∧ t = (s.emit (s.reg r)).advance .prn := by
  obtain ⟨r, hr, h⟩ := withReg_next h
  cases h; exact ⟨r, hr, rfl⟩

theorem execHlt_next {s t : State} (h : execHlt s = .next t) :
    t = (s.setStatus .halt).advance .hlt := by
  cases h; rfl

theorem execPush_next {a : Byte} {s t : State} (h : execPush a s = .next t) :
    ∃ r, reg a = some r ∧
      ((s.decSp.sp.toNat < s.params.memSize ∧
        t = ({ s.decSp with
                mem := Memory.write s.mem s.decSp.sp.toNat (s.decSp.reg r) } : State).advance .push) ∨
       (s.params.memSize ≤ s.decSp.sp.toNat ∧
        t = takeFatal (.outOfBoundsAccess s.decSp.sp.toNat) s)) := by
  obtain ⟨r, hr, h⟩ := withReg_next h
  rcases orFatal_memWrite_next h with ⟨hb, h⟩ | h
  · cases h; exact ⟨r, hr, .inl ⟨hb, rfl⟩⟩
  · exact ⟨r, hr, .inr h⟩

theorem execPop_next {a : Byte} {s t : State} (h : execPop a s = .next t) :
    ∃ r, reg a = some r ∧
      ((s.sp.toNat < s.params.memSize ∧
        t = (s.setReg r (Memory.read s.mem s.sp.toNat)).incSp.advance .pop) ∨
       (s.params.memSize ≤ s.sp.toNat ∧ t = takeFatal (.outOfBoundsAccess s.sp.toNat) s)) := by
  obtain ⟨r, hr, h⟩ := withReg_next h
  rcases orFatal_memRead_next h with ⟨hb, h⟩ | h
  · cases h; exact ⟨r, hr, .inl ⟨hb, rfl⟩⟩
  · exact ⟨r, hr, .inr h⟩

theorem execCall_next {a : Byte} {s t : State} (h : execCall a s = .next t) :
    ∃ r, reg a = some r ∧
      ((s.decSp.sp.toNat < s.params.memSize ∧
        t = ({ s.decSp with
                mem := Memory.write s.mem s.decSp.sp.toNat (trunc8 (s.pc + 2)) } : State).setPc
              (s.decSp.reg r).toNat) ∨
       (s.params.memSize ≤ s.decSp.sp.toNat ∧
        t = takeFatal (.outOfBoundsAccess s.decSp.sp.toNat) s)) := by
  obtain ⟨r, hr, h⟩ := withReg_next h
  rcases orFatal_memWrite_next h with ⟨hb, h⟩ | h
  · cases h; exact ⟨r, hr, .inl ⟨hb, rfl⟩⟩
  · exact ⟨r, hr, .inr h⟩

theorem execRet_next {s t : State} (h : execRet s = .next t) :
    (s.sp.toNat < s.params.memSize ∧
      t = (s.setPc (Memory.read s.mem s.sp.toNat).toNat).incSp) ∨
    (s.params.memSize ≤ s.sp.toNat ∧ t = takeFatal (.outOfBoundsAccess s.sp.toNat) s) := by
  rcases orFatal_memRead_next h with ⟨hb, h⟩ | h
  · cases h; exact .inl ⟨hb, rfl⟩
  · exact .inr h

theorem execJmp_next {a : Byte} {s t : State} (h : execJmp a s = .next t) :
    ∃ r, reg a = some r ∧ t = s.setPc (s.reg r).toNat := by
  obtain ⟨r, hr, h⟩ := withReg_next h
  cases h; exact ⟨r, hr, rfl⟩

theorem conditionalJump_next {cond : Flags → Bool} {m : Mnemonic} {a : Byte} {s t : State}
    (h : conditionalJump cond m a s = .next t) :
    ∃ r, reg a = some r ∧ t = if cond s.fl then s.setPc (s.reg r).toNat else s.advance m := by
  obtain ⟨r, hr, h⟩ := withReg_next h
  cases h; exact ⟨r, hr, rfl⟩

/-! ### One equation per meaning, on operands that name registers and accesses inside memory -/

theorem execMul_ok {a b : Byte} {r q : Reg} (ha : reg a = some r) (hb : reg b = some q) (s : State) :
    execMul a b s = .next ((s.setReg r (mulResult (s.reg r) (s.reg q))).advance .mul) :=
  aluCycle_ok (op := .mul) ha hb rfl

theorem execAdd_ok {a b : Byte} {r q : Reg} (ha : reg a = some r) (hb : reg b = some q) (s : State) :
    execAdd a b s = .next ((s.setReg r (addResult (s.reg r) (s.reg q))).advance .add) :=
  aluCycle_ok (op := .add) ha hb rfl

theorem execCmp_ok {a b : Byte} {r q : Reg} (ha : reg a = some r) (hb : reg b = some q) (s : State) :
    execCmp a b s = .next ((s.setFl (compareFlags (s.reg r) (s.reg q))).advance .cmp) :=
  aluCycle_ok (op := .cmp) ha hb rfl

theorem execSub_ok {a b : Byte} {r q : Reg} (ha : reg a = some r) (hb : reg b = some q) (s : State) :
    execSub a b s = .next ((s.setReg r (subResult (s.reg r) (s.reg q))).advance .sub) :=
  aluCycle_ok (op := .sub) ha hb rfl

theorem execDiv_ok {a b : Byte} {r q : Reg} (ha : reg a = some r) (hb : reg b = some q) {s : State}
    (hz : s.reg q ≠ 0#8) :
    execDiv a b s = .next ((s.setReg r (divResult (s.reg r) (s.reg q))).advance .div) :=
  aluCycle_ok (op := .div) ha hb (by simp [alu, hz])

theorem execMod_ok {a b : Byte} {r q : Reg} (ha : reg a = some r) (hb : reg b = some q) {s : State}
    (hz : s.reg q ≠ 0#8) :
    execMod a b s = .next ((s.setReg r (modResult (s.reg r) (s.reg q))).advance .mod) :=
  aluCycle_ok (op := .mod) ha hb (by simp [alu, hz])

theorem execPush_ok {a : Byte} {r : Reg} (ha : reg a = some r) {s : State}
    (hb : s.decSp.sp.toNat < s.params.memSize) :
    execPush a s = .next (({ s.decSp with
      mem := Memory.write s.mem s.decSp.sp.toNat (s.decSp.reg r) } : State).advance .push) := by
  unfold execPush
  rw [withReg_some ha]
  dsimp only
  rw [memWrite_ok (by simpa using hb)]
  rfl

theorem execPop_ok {a : Byte} {r : Reg} (ha : reg a = some r) {s : State}
    (hb : s.sp.toNat < s.params.memSize) :
    execPop a s =
      .next ((s.setReg r (Memory.read s.mem s.sp.toNat)).incSp.advance .pop) := by
  unfold execPop
  rw [withReg_some ha, memRead_ok hb]
  rfl

theorem execCall_ok {a : Byte} {r : Reg} (ha : reg a = some r) {s : State}
    (hb : s.decSp.sp.toNat < s.params.memSize) :
    execCall a s = .next (({ s.decSp with
      mem := Memory.write s.mem s.decSp.sp.toNat (trunc8 (s.pc + 2)) } : State).setPc
        (s.decSp.reg r).toNat) := by
  unfold execCall
  rw [withReg_some ha]
  dsimp only
  rw [memWrite_ok (by simpa using hb)]
  rfl

theorem execRet_ok {s : State} (hb : s.sp.toNat < s.params.memSize) :
    execRet s = .next ((s.setPc (Memory.read s.mem s.sp.toNat).toNat).incSp) := by
  unfold execRet
  rw [memRead_ok hb]
  rfl

/-! ### What any instruction can do -/

/-- The effect of an instruction that ends without a fatal error. -/
structure Completes (i : Instr) (s t : State) : Prop where
  params : t.params = s.params
  err : t.err = s.err
  status : t.status = s.status ∨ (i = .hlt ∧ t.status = .halt)
  pc : t.pc = s.pc + 1 + nops (s.params.opcode i.mnemonic) ∨
    (i.mnemonic.isControlTransfer = true ∧ t.pc ≤ 255)
  fl : t.fl = s.fl ∨ ∃ a b, i = .cmp a b ∧ t.fl ≠ .none
  out : t.out = s.out ∨ ∃ a r, i = .prn a ∧ reg a = some r ∧ t.out = s.out ++ [s.reg r]
  regs : RegsKept (writtenRegs i) s t
  mem : t.mem = s.mem ∨ ∃ a v, (i = .push a ∨ i = .call a) ∧ s.decSp.sp.toNat < s.params.memSize ∧
    t.mem = Memory.write s.mem s.decSp.sp.toNat v

/-- The effect common to the ALU instructions. -/
theorem Completes.of_alu {i : Instr} {op : AluOp} {m : Mnemonic} {a b : Byte} {s t : State}
    (hm : i.mnemonic = m) (hcmp : op = .cmp → i = .cmp a b)
    (hw : ∀ r, reg a = some r → op ≠ .cmp → writtenRegs i = [r])
    (h : aluCycle op m a b s = .next t) : Completes i s t := by
  obtain ⟨r, q, u, hr, hq, hu, rfl⟩ := aluCycle_next h
  obtain ⟨f1, f2, f3, f4, f5, f6⟩ := alu_frame hu
  have hwr := alu_writes hu
  refine ⟨f6, f5, .inl f4, .inl ?_, ?_, .inl f3, ?_, .inl f2⟩
  · simp [f1, f6, hm]
  · rcases hwr with ⟨ho, -, hf⟩ | ⟨-, hf, -⟩
    · exact .inr ⟨a, b, hcmp ho, by simpa [hf] using compareFlags_ne_none _ _⟩
    · exact .inl hf
  · intro p hp
    rcases hwr with ⟨-, hg, -⟩ | ⟨ho, -, hk⟩
    · show u.regs.get p = s.regs.get p
      rw [hg]
    · rw [hw r hr ho] at hp
      exact hk p (by simpa using hp)

/-- Everything `exec` can do when it answers a next state: the fatal error of a stack access outside
memory, or the instruction's effect. -/
theorem exec_next {i : Instr} {s t : State} (h : exec i s = .next t) :
    (∃ a, t = takeFatal (.outOfBoundsAccess a) s ∧ s.params.memSize ≤ a ∧ a ≤ 255) ∨
    Completes i s t := by
  have byte : ∀ x : Byte, x.toNat ≤ 255 := fun x => Nat.le_of_lt_succ x.isLt
  cases i with
  | ldi a b =>
    obtain ⟨r, hr, rfl⟩ := execLdi_next h
    exact .inr ⟨rfl, rfl, .inl rfl, .inl rfl, .inl rfl, .inl rfl,
      fun q hq => State.setReg_reg_ne _ (by simpa [writtenRegs, hr] using hq) _, .inl rfl⟩
  | prn a =>
    obtain ⟨r, hr, rfl⟩ := execPrn_next h
    exact .inr ⟨rfl, rfl, .inl rfl, .inl rfl, .inl rfl, .inr ⟨a, r, rfl, hr, rfl⟩,
      fun q _ => rfl, .inl rfl⟩
  | hlt =>
    cases execHlt_next h
    exact .inr ⟨rfl, rfl, .inr ⟨rfl, rfl⟩, .inl rfl, .inl rfl, .inl rfl, fun q _ => rfl, .inl rfl⟩
  | mul a b =>
    exact .inr (Completes.of_alu (op := .mul) (a := a) (b := b) rfl (by simp)
      (fun r hr _ => by simp [writtenRegs, hr]) h)
  | add a b =>
    exact .inr (Completes.of_alu (op := .add) (a := a) (b := b) rfl (by simp)
      (fun r hr _ => by simp [writtenRegs, hr]) h)
  | cmp a b =>
    exact .inr (Completes.of_alu (op := .cmp) (a := a) (b := b) rfl (fun _ => rfl)
      (fun r hr ho => absurd rfl ho) h)
  | sub a b =>
    exact .inr (Completes.of_alu (op := .sub) (a := a) (b := b) rfl (by simp)
      (fun r hr _ => by simp [writtenRegs, hr]) h)
  | div a b =>
    exact .inr (Completes.of_alu (op := .div) (a := a) (b := b) rfl (by simp)
      (fun r hr _ => by simp [writtenRegs, hr]) h)
  | mod a b =>
    exact .inr (Completes.of_alu (op := .mod) (a := a) (b := b) rfl (by simp)
      (fun r hr _ => by simp [writtenRegs, hr]) h)
  | push a =>
    obtain ⟨r, hr, ⟨hb, rfl⟩ | ⟨hb, rfl⟩⟩ := execPush_next h
    · exact .inr ⟨rfl, rfl, .inl rfl, .inl rfl, .inl rfl, .inl rfl,
        fun q hq => s.decSp_reg_ne (by simpa [writtenRegs] using hq), .inr ⟨a, _, .inl rfl, hb, rfl⟩⟩
    · exact .inl ⟨_, rfl, hb, byte _⟩
  | pop a =>
    obtain ⟨r, hr, ⟨hb, rfl⟩ | ⟨hb, rfl⟩⟩ := execPop_next h
    · refine .inr ⟨rfl, rfl, .inl rfl, .inl rfl, .inl rfl, .inl rfl, fun q hq => ?_, .inl rfl⟩
      obtain ⟨h7, hne⟩ : q ≠ .r7 ∧ q ≠ r := by simpa [writtenRegs, hr] using hq
      rw [State.advance_reg, State.incSp_reg_ne _ h7, State.setReg_reg_ne _ hne]
    · exact .inl ⟨_, rfl, hb, byte _⟩
  | call a =>
    obtain ⟨r, hr, ⟨hb, rfl⟩ | ⟨hb, rfl⟩⟩ := execCall_next h
    · exact .inr ⟨rfl, rfl, .inl rfl, .inr ⟨rfl, byte _⟩, .inl rfl, .inl rfl,
        fun q hq => s.decSp_reg_ne (by simpa [writtenRegs] using hq), .inr ⟨a, _, .inr rfl, hb, rfl⟩⟩
    · exact .inl ⟨_, rfl, hb, byte _⟩
  | ret =>
    rcases execRet_next h with ⟨hb, rfl⟩ | ⟨hb, rfl⟩
    · exact .inr ⟨rfl, rfl, .inl rfl, .inr ⟨rfl, byte _⟩, .inl rfl, .inl rfl,
        fun q hq => (s.setPc _).incSp_reg_ne (by simpa [writtenRegs] using hq), .inl rfl⟩
    · exact .inl ⟨_, rfl, hb, byte _⟩
  | jmp a =>
    obtain ⟨r, hr, rfl⟩ := execJmp_next h
    exact .inr ⟨rfl, rfl, .inl rfl, .inr ⟨rfl, byte _⟩, .inl rfl, .inl rfl, fun q _ => rfl, .inl rfl⟩
  | jeq a | jne a | jgt a =>
    obtain ⟨r, hr, rfl⟩ := conditionalJump_next h
    right
    split
    · exact ⟨rfl, rfl, .inl rfl, .inr ⟨rfl, byte _⟩, .inl rfl, .inl rfl, fun q _ => rfl, .inl rfl⟩
    · exact ⟨rfl, rfl, .inl rfl, .inl rfl, .inl rfl, .inl rfl, fun q _ => rfl, .inl rfl⟩

/-! ### What a step can do -/

/-- A program counter decodes to one instruction only. -/
theorem Fetches.unique {s : State} {i j : Instr} (h : Fetches s i) (k : Fetches s j) : i = j := by
  obtain ⟨l, hl, hd⟩ := h
  obtain ⟨m, hm, he⟩ := k
  rw [hl] at hm; cases hm
  rw [hd] at he; cases he; rfl

/-- Everything a step can do when it answers a next state: nothing, the clock being stopped; the fatal
error of the fetch, of an undefined opcode or of a stack access; or the effect of the fetched
instruction. -/
theorem step_next {s t : State} (h : step s = .next t) :
    (s.status ≠ .run ∧ t = s) ∨
    (s.status = .run ∧ ∃ k, k ≤ 2 ∧ s.params.memSize ≤ s.pc + k ∧
      t = takeFatal (.outOfBoundsAccess (s.pc + k)) s) ∨
    (s.status = .run ∧ dispatch s.params (Memory.read s.mem s.pc) = none ∧
      t = takeFatal (.unknownOpcode s.pc (Memory.read s.mem s.pc)) s) ∨
    (s.status = .run ∧ ∃ a, t = takeFatal (.outOfBoundsAccess a) s ∧ s.params.memSize ≤ a ∧
      a ≤ 255) ∨
    (s.status = .run ∧ s.Fetchable ∧ ∃ i, Fetches s i ∧ s.params.enabled i.mnemonic = true ∧
      s.params.opcode i.mnemonic = Memory.read s.mem s.pc ∧ exec i s = .next t ∧
      Completes i s t) := by
  rcases step_cases s with ⟨hr, e⟩ | ⟨hr, k, hk, hb, e⟩ | ⟨hr, hf, hd, e⟩ | ⟨hr, hf, m, hd, hi, e⟩
  · rw [e] at h; cases h; exact .inl ⟨hr, rfl⟩
  · rw [e] at h; cases h; exact .inr (.inl ⟨hr, k, hk, hb, rfl⟩)
  · rw [e] at h; cases h; exact .inr (.inr (.inl ⟨hr, hd, rfl⟩))
  · rw [e] at h
    obtain ⟨he, ho⟩ := dispatch_some hd
    rcases exec_next h with h' | h'
    · exact .inr (.inr (.inr (.inl ⟨hr, h'⟩)))
    · exact .inr (.inr (.inr (.inr ⟨hr, hf, _, hi, by simpa using he, by simpa using ho, h, h'⟩)))

end Sys2Proof.Machine
end

