-- ==== Sys2Proof/Laws/PerInstr.lean ====
section
/-! SUPPORT. A statement for all instructions, one lemma per constructor: an instruction occupies
`1 + nops(op)` bytes (30_encoding.md R52). -/

namespace Sys2Proof.Laws.EncodeLength

open Sys2Proof

/-- On allowed parameters the encoding of the instruction has `1 + nops(op)` bytes. -/
def Statement (i : Instr) : Prop :=
  ∀ p : Params, p.Valid → p.enabled i.mnemonic = true →
    (encode p i).length = 1 + nops (p.opcode i.mnemonic)

/-- The fact behind every case: the operand bytes are as many as the operand count. -/
theorem of_operandBytes (i : Instr) : Statement i := by
  intro p hp he
  simp [encode, hp.nops he, Nat.add_comm]

theorem ldi (a b : Byte) : Statement (.ldi a b) := of_operandBytes _
theorem prn (a : Byte) : Statement (.prn a) := of_operandBytes _
theorem hlt : Statement .hlt := of_operandBytes _
theorem mul (a b : Byte) : Statement (.mul a b) := of_operandBytes _
theorem add (a b : Byte) : Statement (.add a b) := of_operandBytes _
theorem cmp (a b : Byte) : Statement (.cmp a b) := of_operandBytes _
theorem push (a : Byte) : Statement (.push a) := of_operandBytes _
theorem pop (a : Byte) : Statement (.pop a) := of_operandBytes _
theorem call (a : Byte) : Statement (.call a) := of_operandBytes _
theorem ret : Statement .ret := of_operandBytes _
theorem jmp (a : Byte) : Statement (.jmp a) := of_operandBytes _
theorem jeq (a : Byte) : Statement (.jeq a) := of_operandBytes _
theorem jne (a : Byte) : Statement (.jne a) := of_operandBytes _
theorem jgt (a : Byte) : Statement (.jgt a) := of_operandBytes _
theorem sub (a b : Byte) : Statement (.sub a b) := of_operandBytes _
theorem div (a b : Byte) : Statement (.div a b) := of_operandBytes _
theorem mod (a b : Byte) : Statement (.mod a b) := of_operandBytes _

end Sys2Proof.Laws.EncodeLength
end

