-- ==== Sys2Proof/Tests/Slice0.lean ====
section
/-! SUPPORT. The model's own tests.  Expected results are those of spec/: the words of 30_encoding.md
R57 and R64 written out bit by bit, and the vectors of 95_test_vectors.md section 2. -/

namespace Sys2Proof.Tests

open Sys2Proof Sys2Proof.Machine

/-! ### Small states -/

/-- The default parameters with `EXT_ALU` on. -/
def ext : Params := { Params.default with extAlu := true }

/-- The default parameters with 128 bytes of memory. -/
def small : Params := { Params.default with memSize := 128 }

/-- The reset state with a few bytes from an address on, PC at that address. -/
def placed (p : Params) (addr : Nat) (bytes : List Byte) : State :=
  { State.resetWith p with pc := addr, mem := loadImage [] addr bytes }

/-- The default machine with a few bytes at address 0. -/
def load (bytes : List Byte) : State := placed Params.default 0 bytes

/-- The next state, where there is one. -/
def next? : Result → Option State
  | .next t => some t
  | .fault _ => none
  | .refused _ => none

/-- The reason of a refusal, where there is one. -/
def refusal? : Result → Option Refusal
  | .next _ => none
  | .fault _ => none
  | .refused e => some e

/-- A step, seen through a function of the next state. -/
def seen {α : Type} (s : State) (f : State → α) : Option α := (next? (step s)).map f

/-! ### Well-formedness: an ill-formed term for each check, refused -/

theorem test_wf_ldi : (Instr.ldi 8 0).wellFormed = false ∧ (Instr.ldi 7 200).wellFormed = true := by
  decide
theorem test_wf_prn : (Instr.prn 255).wellFormed = false := by decide
theorem test_wf_mul : (Instr.mul 8 0).wellFormed = false ∧ (Instr.mul 0 8).wellFormed = false := by
  decide
theorem test_wf_add : (Instr.add 9 0).wellFormed = false ∧ (Instr.add 0 8).wellFormed = false := by
  decide
theorem test_wf_cmp : (Instr.cmp 8 0).wellFormed = false ∧ (Instr.cmp 0 9).wellFormed = false := by
  decide
theorem test_wf_push : (Instr.push 8).wellFormed = false := by decide
theorem test_wf_pop : (Instr.pop 8).wellFormed = false := by decide
theorem test_wf_call : (Instr.call 8).wellFormed = false := by decide
theorem test_wf_jmp : (Instr.jmp 8).wellFormed = false := by decide
theorem test_wf_jeq : (Instr.jeq 9).wellFormed = false := by decide
theorem test_wf_jne : (Instr.jne 8).wellFormed = false := by decide
theorem test_wf_jgt : (Instr.jgt 8).wellFormed = false := by decide
theorem test_wf_sub : (Instr.sub 8 0).wellFormed = false ∧ (Instr.sub 0 8).wellFormed = false := by
  decide
theorem test_wf_div : (Instr.div 8 0).wellFormed = false ∧ (Instr.div 0 8).wellFormed = false := by
  decide
theorem test_wf_mod : (Instr.mod 8 0).wellFormed = false ∧ (Instr.mod 0 8).wellFormed = false := by
  decide

/-! ### Decoding: one word per constructor, from the table's bits -/

theorem test_decode_ldi : decode Params.default 0b10011001 0b00000010 0b00101010 = .ok (.ldi 2 42) := by
  decide
theorem test_decode_prn : decode Params.default 0b01000011 0b00000001 0 = .ok (.prn 1) := by decide
theorem test_decode_hlt : decode Params.default 0b00000001 9 9 = .ok .hlt := by decide
theorem test_decode_mul : decode Params.default 0b10101010 0 1 = .ok (.mul 0 1) := by decide
theorem test_decode_add : decode Params.default 0b10101000 6 7 = .ok (.add 6 7) := by decide
theorem test_decode_cmp : decode Params.default 0b10100000 3 2 = .ok (.cmp 3 2) := by decide
theorem test_decode_push : decode Params.default 0b01001101 4 9 = .ok (.push 4) := by decide
theorem test_decode_pop : decode Params.default 0b01001100 5 9 = .ok (.pop 5) := by decide
theorem test_decode_call : decode Params.default 0b01001000 1 9 = .ok (.call 1) := by decide
theorem test_decode_ret : decode Params.default 0b00001001 9 9 = .ok .ret := by decide
theorem test_decode_jmp : decode Params.default 0b01010000 3 9 = .ok (.jmp 3) := by decide
theorem test_decode_jeq : decode Params.default 0b01010001 2 9 = .ok (.jeq 2) := by decide
theorem test_decode_jne : decode Params.default 0b01010010 3 9 = .ok (.jne 3) := by decide
theorem test_decode_jgt : decode Params.default 0b01010100 2 9 = .ok (.jgt 2) := by decide
theorem test_decode_sub : decode ext 0b10101001 0 1 = .ok (.sub 0 1) := by decide
theorem test_decode_div : decode ext 0b10101011 0 1 = .ok (.div 0 1) := by decide
theorem test_decode_mod : decode ext 0b10101100 0 1 = .ok (.mod 0 1) := by decide

/-- The undefined bytes that 95_test_vectors.md section 2.1 lists. -/
theorem test_decode_undefined :
    [0x00, 0x53, 0xA9, 0x88, 0x68, 0xC1, 0xFF].all (fun op =>
      decide (decode Params.default op 0 0 = .error (.unknownOpcode op))) = true := by decide

/-- The encoder writes operand A before operand B. -/
theorem test_encode_ldi : encode Params.default (.ldi 2 42) = [0x99, 0x02, 0x2A] := by decide

/-- The number of undefined bytes: 242, with the option 239 (30_encoding.md R58). -/
theorem test_undefined_count :
    ((List.range 256).filter fun n =>
      (dispatch Params.default (BitVec.ofNat 8 n)).isNone).length = 242 ∧
    ((List.range 256).filter fun n => (dispatch ext (BitVec.ofNat 8 n)).isNone).length = 239 := by
  decide +kernel

/-! ### The words of the opcode table -/

/-- Every row's word decodes to an instruction of the row, and runs from reset. -/
theorem test_table_rows :
    [(24, 0x99), (16, 0x43), (8, 0x01), (24, 0xAA), (24, 0xA8), (24, 0xA0), (16, 0x4D), (16, 0x4C),
     (16, 0x48), (8, 0x09), (16, 0x50), (16, 0x51), (16, 0x52), (16, 0x54), (24, 0xA9), (24, 0xAB),
     (24, 0xAC)].map (fun w => (decodeTableWord w.1 w.2).map Instr.mnemonic)
      = Mnemonic.all.map some := by decide

theorem test_table_operands :
    decodeTableWord 24 0x2A0299 = some (.ldi 2 42) ∧ decodeTableWord 8 0x2A0299 = some (.ldi 0 0) := by
  decide

theorem test_withFetchWord_runs_sub :
    seen (State.reset.withFetchWord 24 0x0107A9) (fun t => (t.reg .r7, t.pc, t.status))
      = some (0xF4, 3, .run) := by decide

/-! ### Load, print, halt (section 2.3) -/

theorem test_ldi : seen (load [0x99, 0x00, 0x08]) (fun t => (t.reg .r0, t.pc)) = some (8, 3) := by
  decide
theorem test_ldi_sp : seen (load [0x99, 0x07, 0x80]) (fun t => (t.reg .r7, t.pc)) = some (0x80, 3) := by
  decide
theorem test_prn : seen (load [0x43, 0x07]) (fun t => (t.out, t.pc)) = some ([244], 2) := by decide
theorem test_hlt : seen (load [0x01]) (fun t => (t.status, t.pc)) = some (.halt, 1) := by decide
theorem test_hlt_terminal :
    seen { State.reset with status := .halt } (fun t => t) = some { State.reset with status := .halt } := by
  decide
theorem test_render : (renderEntry 72, renderEntry 0, renderEntry 255) = ("72", "0", "255") := by
  decide

/-! ### The ALU (section 2.4) -/

/-- R0 and R1 hold the operands and FL a value. -/
def operands (p : Params) (op x y : Byte) (f : Flags) : State :=
  ((placed p 0 [op, 0, 1]).setReg .r0 x).setReg .r1 y |>.setFl f

theorem test_mul :
    seen (operands Params.default 0xAA 255 255 .less) (fun t => (t.reg .r0, t.reg .r1, t.fl, t.pc))
      = some (1, 255, .less, 3) := by decide
theorem test_mul_same :
    seen ((load [0xAA, 0, 0]).setReg .r0 0x11) (fun t => t.reg .r0) = some 0x21 := by decide
theorem test_add :
    seen (operands Params.default 0xA8 200 100 .less) (fun t => (t.reg .r0, t.reg .r1, t.fl, t.pc))
      = some (44, 100, .less, 3) := by decide
theorem test_add_same :
    seen ((load [0xA8, 0, 0]).setReg .r0 0x90) (fun t => t.reg .r0) = some 0x20 := by decide
theorem test_cmp_unsigned :
    seen (operands Params.default 0xA0 128 127 .none) (fun t => (t.reg .r0, t.fl, t.pc))
      = some (128, .greater, 3) := by decide
theorem test_cmp_less :
    seen (operands Params.default 0xA0 0 255 .none) (fun t => t.fl) = some .less := by decide
theorem test_sub :
    seen (operands ext 0xA9 5 10 .equal) (fun t => (t.reg .r0, t.fl, t.pc)) = some (251, .equal, 3) := by
  decide
theorem test_sub_disabled :
    seen (operands Params.default 0xA9 5 10 .none) (fun t => (t.status, t.err, t.reg .r0))
      = some (.fault, some (.unknownOpcode 0 0xA9), 5) := by decide
theorem test_div :
    seen (operands ext 0xAB 72 9 .none) (fun t => (t.reg .r0, t.pc)) = some (8, 3) := by decide
theorem test_div_zero :
    refusal? (step (operands ext 0xAB 5 0 .none)) = some .divideByZero := by decide
theorem test_mod :
    seen (operands ext 0xAC 255 16 .none) (fun t => (t.reg .r0, t.pc)) = some (15, 3) := by decide
theorem test_mod_zero :
    refusal? (step (operands ext 0xAC 5 0 .none)) = some .divideByZero := by decide
theorem test_add_invalid_operand :
    refusal? (step (load [0xA8, 0, 8])) = some .invalidRegisterIndex ∧
    refusal? (step (load [0xA8, 9, 0])) = some .invalidRegisterIndex := by decide

/-! ### The stack (section 2.5) -/

theorem test_push :
    seen ((load [0x4D, 0]).setReg .r0 7)
      (fun t => (t.reg .r7, Memory.read t.mem 0xF3, Memory.read t.mem 0xF4, t.pc))
      = some (0xF3, 7, 0, 2) := by decide
theorem test_push_r7 :
    seen (load [0x4D, 7]) (fun t => (t.reg .r7, Memory.read t.mem 0xF3)) = some (0xF3, 0xF3) := by
  decide
theorem test_pop :
    seen { (load [0x4C, 1]).setReg .r7 0xF3 with mem := [(0, 0x4C), (1, 1), (0xF3, 7)] }
      (fun t => (t.reg .r1, t.reg .r7, Memory.read t.mem 0xF3, t.pc)) = some (7, 0xF4, 7, 2) := by
  decide
theorem test_pop_r7 :
    seen { (load [0x4C, 7]).setReg .r7 0xF3 with mem := [(0, 0x4C), (1, 7), (0xF3, 0x20)] }
      (fun t => t.reg .r7) = some 0x21 := by decide
theorem test_push_out_of_bounds :
    seen (placed small 0 [0x4D, 0]) (fun t => (t.status, t.err, t.reg .r7, t.pc))
      = some (.fault, some (.outOfBoundsAccess 0xF3), 0xF4, 0) := by decide

/-! ### Control transfer (section 2.6) -/

theorem test_call :
    seen ((placed Params.default 6 [0x48, 1]).setReg .r1 0x0B)
      (fun t => (t.reg .r7, Memory.read t.mem 0xF3, t.pc)) = some (0xF3, 0x08, 0x0B) := by decide
theorem test_call_r7 :
    seen (load [0x48, 7]) (fun t => (t.reg .r7, Memory.read t.mem 0xF3, t.pc))
      = some (0xF3, 0x02, 0xF3) := by decide
theorem test_ret :
    seen { (placed Params.default 0x0E [0x09]).setReg .r7 0xF3 with mem := [(0x0E, 9), (0xF3, 8)] }
      (fun t => (t.pc, t.reg .r7)) = some (0x08, 0xF4) := by decide
theorem test_jmp :
    seen ((placed Params.default 0x20 [0x50, 3]).setReg .r3 0x0C) (fun t => t.pc) = some 0x0C := by
  decide
theorem test_jmp_self :
    seen ((placed Params.default 3 [0x50, 0]).setReg .r0 3) (fun t => t.pc) = some 3 := by decide

/-- A conditional jump at address 3 with R0 = 0x10, for the four values of FL in the order NONE, EQUAL,
GREATER, LESS. -/
def jumpTable (op : Byte) : List (Option Nat) :=
  [Flags.none, .equal, .greater, .less].map fun f =>
    seen (((placed Params.default 3 [op, 0]).setReg .r0 0x10).setFl f) (fun t => t.pc)

theorem test_jeq_table : jumpTable 0x51 = [some 5, some 0x10, some 5, some 5] := by decide
theorem test_jne_table : jumpTable 0x52 = [some 0x10, some 5, some 0x10, some 0x10] := by decide
theorem test_jgt_table : jumpTable 0x54 = [some 5, some 5, some 0x10, some 5] := by decide
theorem test_jeq_invalid : refusal? (step (load [0x51, 9])) = some .invalidRegisterIndex := by decide

/-! ### Fetch and errors (sections 2.2 and 2.7) -/

theorem test_fetch_top :
    seen (placed Params.default 253 [0x01]) (fun t => (t.status, t.pc)) = some (.halt, 254) ∧
    seen (placed Params.default 254 [0x01]) (fun t => (t.status, t.err, t.pc))
      = some (.fault, some (.outOfBoundsAccess 256), 254) ∧
    seen (placed Params.default 255 [0x77]) (fun t => t.err)
      = some (some (.outOfBoundsAccess 256)) ∧
    seen (placed Params.default 253 [0x77]) (fun t => t.err)
      = some (some (.unknownOpcode 253 0x77)) ∧
    seen (placed Params.default 253 [0x99, 0, 5]) (fun t => (t.reg .r0, t.pc, t.status))
      = some (5, 256, .run) ∧
    seen { State.reset with pc := 256 } (fun t => t.err)
      = some (some (.outOfBoundsAccess 256)) := by decide
theorem test_reset_unknown :
    seen State.reset (fun t => t)
      = some { State.reset with status := .fault, err := some (.unknownOpcode 0 0) } := by decide
theorem test_stop_request :
    State.reset.stopRequest = { State.reset with status := .halt } := by decide

/-! ### Memory keeps its canonical form -/

theorem test_memory_write_zero_removes : Memory.write [(3, 7), (5, 9)] 3 0 = [(5, 9)] := by decide
theorem test_memory_write_between :
    Memory.write [(3, 7), (5, 9)] 4 1 = [(3, 7), (4, 1), (5, 9)] := by decide
theorem test_launch_too_long : launch { Params.default with memSize := 1 } [1, 2] = none := by decide

/-! ### Witnesses: concrete states and operands that meet the hypotheses of each statement

One conjunct per clause where a statement has several. -/

theorem ext_valid : ext.Valid := Params.valid_of_default_opc rfl (by decide)
theorem small_valid : small.Valid := Params.valid_of_default_opc rfl (by decide)

theorem witness_DecodeEncodeRoundTrip :
    (Params.default.Valid ∧ Params.default.enabled (Instr.ldi 7 255).mnemonic = true ∧
      encode Params.default (.ldi 7 255) ++ [] = 0x99 :: 7 :: 255 :: []) ∧
    (ext.Valid ∧ ext.enabled (Instr.mod 0 8).mnemonic = true ∧
      encode ext (.mod 0 8) ++ [3] = 0xAC :: 0 :: 8 :: [3]) ∧
    (Params.default.Valid ∧ Params.default.enabled Instr.hlt.mnemonic = true ∧
      encode Params.default .hlt ++ [5, 6] = 0x01 :: 5 :: 6 :: []) :=
  ⟨⟨Params.default_valid, by decide, by decide⟩, ⟨ext_valid, by decide, by decide⟩,
    ⟨Params.default_valid, by decide, by decide⟩⟩

theorem witness_EncodeDecodeRoundTrip :
    Params.default.Valid ∧ decode Params.default 0x43 255 9 = .ok (.prn 255) :=
  ⟨Params.default_valid, by decide⟩

theorem witness_UnusedOperandBytesIgnored :
    Params.default.Valid ∧ nops 0x43 ≤ 1 ∧ nops 0x01 = 0 :=
  ⟨Params.default_valid, by decide, by decide⟩

theorem witness_OperandSelectsRegister : 7 < (8 : Byte).toNat ∧ 7 < (255 : Byte).toNat := by decide

theorem witness_MemWriteSetsOneByte :
    Memory.wf State.reset.mem ∧ 255 < State.reset.params.memSize ∧
      State.reset.params.memSize ≤ 256 := by decide

theorem witness_EqualReadsAreEqualMemories :
    ∃ m : Memory, m ≠ [] ∧ Memory.wf m ∧ ∀ a, Memory.read m a = Memory.read m a :=
  ⟨[(0, 1), (255, 2)], by decide, by decide, fun _ => rfl⟩

theorem witness_ResetLeavesStatedValues : Reg.r0 ≠ .r7 ∧ 255 < Params.default.memSize := by decide

theorem witness_LaunchLoadsImage :
    ([1, 2] : List Byte).length ≤ Params.default.memSize ∧ 1 < ([1, 2] : List Byte).length ∧
    ([1, 2] : List Byte).length ≤ 2 ∧ 2 < Params.default.memSize ∧
    ({ Params.default with memSize := 1 } : Params).memSize < ([1, 2] : List Byte).length := by decide

theorem fetches_hlt : Fetches (load [0x01]) .hlt := ⟨⟨0x01, 0, 0⟩, by decide, by decide⟩

theorem witness_StepRunsDecodedInstruction :
    (load [0x01]).status = .run ∧ Fetches (load [0x01]) .hlt := ⟨rfl, fetches_hlt⟩

theorem witness_FetchReadsThreeBytesInBounds :
    State.reset.status = .run ∧
    ({ State.reset with pc := 256 } : State).params.memSize ≤ 256 ∧
    255 + 1 = ({ State.reset with pc := 255 } : State).params.memSize ∧
    254 + 2 = ({ State.reset with pc := 254 } : State).params.memSize ∧
    253 + 2 < ({ State.reset with pc := 253 } : State).params.memSize := by decide

theorem witness_UnknownOpcodeStopsUnchanged :
    State.reset.status = .run ∧ State.reset.Fetchable ∧
    ∀ m, State.reset.params.enabled m = true →
      State.reset.params.opcode m ≠ Memory.read State.reset.mem State.reset.pc :=
  ⟨rfl, by unfold State.Fetchable; decide, (dispatch_none_iff _ _).mp (by decide)⟩

theorem witness_StoppedMachineNeverChanges :
    ({ State.reset with status := .halt } : State).status = .halt ∧
    ({ State.reset with status := .fault } : State).status = .fault := ⟨rfl, rfl⟩

theorem witness_RefusedExactlyWhen :
    (Instr.add 0 8).wellFormed = false ∧
    ((Instr.div 0 1).wellFormed = true ∧ DividesByZero (.div 0 1) State.reset) ∧
    ((Instr.div 0 7).wellFormed = true ∧ ¬ DividesByZero (.div 0 7) State.reset) :=
  ⟨by decide, ⟨by decide, .r1, by decide, by decide⟩, by decide, by
    rintro ⟨q, hq, hz⟩
    cases (show reg 7 = some .r7 by decide).symm.trans hq
    exact absurd hz (by decide)⟩

/-- The hypotheses on parameters and one register operand, R7 among the registers. -/
theorem witness_oneRegisterOperand :
    State.reset.params.Valid ∧ reg 0 = some .r0 ∧ reg 7 = some .r7 :=
  ⟨Params.default_valid, by decide, by decide⟩

theorem witness_LdiLoadsImmediate : State.reset.params.Valid ∧ reg 7 = some .r7 :=
  ⟨Params.default_valid, by decide⟩
theorem witness_PrnAppendsRegister : State.reset.params.Valid ∧ reg 7 = some .r7 :=
  ⟨Params.default_valid, by decide⟩
theorem witness_HltStopsClock : State.reset.params.Valid := Params.default_valid

theorem witness_MulWrapsProduct :
    State.reset.params.Valid ∧ reg 7 = some .r7 ∧ reg 0 = some .r0 :=
  ⟨Params.default_valid, by decide, by decide⟩
theorem witness_AddWrapsSum :
    State.reset.params.Valid ∧ reg 0 = some .r0 ∧ reg 0 = some .r0 :=
  ⟨Params.default_valid, by decide, by decide⟩
theorem witness_CmpSetsFlagsByUnsignedOrder :
    State.reset.params.Valid ∧ reg 6 = some .r6 ∧ reg 7 = some .r7 :=
  ⟨Params.default_valid, by decide, by decide⟩

theorem witness_SubWrapsDifference :
    (State.resetWith ext).params.Valid ∧ (State.resetWith ext).params.extAlu = true ∧
      reg 0 = some .r0 ∧ reg 7 = some .r7 := ⟨ext_valid, rfl, by decide, by decide⟩
theorem witness_DivWritesQuotient :
    (State.resetWith ext).params.Valid ∧ (State.resetWith ext).params.extAlu = true ∧
      reg 0 = some .r0 ∧ reg 7 = some .r7 ∧ (State.resetWith ext).reg .r7 ≠ 0 ∧
      reg 1 = some .r1 ∧ (State.resetWith ext).reg .r1 = 0 :=
  ⟨ext_valid, rfl, by decide, by decide, by decide, by decide, by decide⟩
theorem witness_ModWritesRemainder :
    (State.resetWith ext).params.Valid ∧ (State.resetWith ext).params.extAlu = true ∧
      reg 0 = some .r0 ∧ reg 7 = some .r7 ∧ (State.resetWith ext).reg .r7 ≠ 0 ∧
      reg 1 = some .r1 ∧ (State.resetWith ext).reg .r1 = 0 :=
  ⟨ext_valid, rfl, by decide, by decide, by decide, by decide, by decide⟩

theorem witness_AluNeverTouchesMemoryOrPc :
    (Instr.mul 0 1).mnemonic.usesAlu = true ∧ (∃ t, exec (.mul 0 1) State.reset = .next t) ∧
    exec (.mul 0 8) State.reset = .refused .invalidRegisterIndex :=
  ⟨rfl, ⟨_, rfl⟩, rfl⟩

/-- SP = 0 pushes to address 255, the top of memory. -/
theorem witness_PushStoresBelowStackPointer :
    State.reset.params.Valid ∧ Memory.wf State.reset.mem ∧ reg 7 = some .r7 ∧
    (State.reset.reg .r7 - 1).toNat < State.reset.params.memSize ∧
    ((State.reset.setReg .r7 0).reg .r7 - 1).toNat = 255 :=
  ⟨Params.default_valid, by decide, by decide, by decide, by decide⟩

theorem witness_PopLoadsFromStackPointer :
    State.reset.params.Valid ∧ reg 7 = some .r7 ∧ reg 0 = some .r0 ∧
    memRead State.reset (State.reset.reg .r7).toNat = .ok 0 :=
  ⟨Params.default_valid, by decide, by decide, by decide⟩

theorem witness_PushPopRoundTrip :
    State.reset.params.Valid ∧ Memory.wf State.reset.mem ∧ reg 6 = some .r6 ∧ Reg.r6 ≠ .r7 ∧
    (State.reset.reg .r7 - 1).toNat < State.reset.params.memSize :=
  ⟨Params.default_valid, by decide, by decide, by decide, by decide⟩

/-- A CALL at the last address an instruction can be fetched from. -/
theorem witness_CallSavesReturnAddress :
    (placed Params.default 253 [0x48, 7]).params.Valid ∧
    Memory.wf (placed Params.default 253 [0x48, 7]).mem ∧
    (placed Params.default 253 [0x48, 7]).Fetchable ∧ reg 7 = some .r7 ∧
    ((placed Params.default 253 [0x48, 7]).reg .r7 - 1).toNat
      < (placed Params.default 253 [0x48, 7]).params.memSize :=
  ⟨Params.default_valid, by decide, by unfold State.Fetchable; decide, by decide, by decide⟩

theorem witness_RetJumpsToSavedByte :
    memRead State.reset (State.reset.reg .r7).toNat = .ok 0 := by decide

theorem witness_CallRetRoundTrip :
    ∃ s t : State, s.params.Valid ∧ Memory.wf s.mem ∧ s.Fetchable ∧ s.status = .run ∧
      exec (.call 1) s = .next t ∧ t.status = .run ∧ t.reg .r7 = t.reg .r7 ∧
      memRead t (t.reg .r7).toNat = memRead t (t.reg .r7).toNat :=
  ⟨load [0x48, 1], _, Params.default_valid, by decide, by unfold State.Fetchable; decide, rfl, rfl,
    rfl, rfl, rfl⟩

theorem witness_JmpJumpsToRegister : reg 7 = some .r7 := by decide

theorem witness_ConditionalJumpTable : State.reset.params.Valid ∧ reg 7 = some .r7 :=
  ⟨Params.default_valid, by decide⟩

theorem witness_StackFaultUndoesCycle :
    reg 7 = some .r7 ∧
    (State.resetWith small).params.memSize ≤ ((State.resetWith small).reg .r7 - 1).toNat ∧
    (State.resetWith small).params.memSize ≤ ((State.resetWith small).setReg .r7 128).sp.toNat := by
  decide

theorem witness_FullMemoryFaultsOnlyAtTop :
    ({ State.reset with pc := 256 } : State).status = .run ∧
    ({ State.reset with pc := 256 } : State).params.memSize = 256 ∧
    ({ State.reset with pc := 256 } : State).pc ≤ 256 := by decide

theorem witness_OnlyCmpWritesOnlyJumpsReadFlags :
    (∃ t, step (load [0xA0, 0, 7]) = .next t ∧ t.fl ≠ (load [0xA0, 0, 7]).fl) ∧
    (Instr.ldi 0 1).mnemonic ≠ .jeq ∧ (Instr.ldi 0 1).mnemonic ≠ .jne ∧
    (Instr.ldi 0 1).mnemonic ≠ .jgt ∧ (∃ t, exec (.ldi 0 1) State.reset = .next t) ∧
    exec (.ldi 8 1) State.reset = .refused .invalidRegisterIndex ∧
    (∃ t u, exec (.jeq 7) State.reset = .next t ∧
      exec (.jeq 7) { State.reset with fl := .equal } = .next u ∧ t.pc ≠ u.pc) :=
  ⟨⟨_, rfl, by decide⟩, by decide, by decide, by decide, ⟨_, rfl⟩, rfl,
    ⟨_, _, rfl, rfl, by decide⟩⟩

theorem witness_FlagsNeverReturnToNone :
    ∃ t, step ((load [0x01]).setFl .less) = .next t ∧ ((load [0x01]).setFl .less).fl ≠ .none :=
  ⟨_, rfl, by decide⟩

theorem witness_OnlyPrnAppendsOutput :
    ∃ t, step (load [0x43, 7]) = .next t ∧ t.out ≠ (load [0x43, 7]).out := ⟨_, rfl, by decide⟩

theorem witness_OnlyPushAndCallStore :
    ∃ t, step (load [0x4D, 7]) = .next t ∧ t.mem ≠ (load [0x4D, 7]).mem := ⟨_, rfl, by decide⟩

theorem witness_RegisterAccessesAreListed :
    (∃ t, step (load [0x99, 0, 8]) = .next t ∧ t.reg .r0 ≠ (load [0x99, 0, 8]).reg .r0) ∧
    Reg.r2 ∉ readRegs (.add 0 1) State.reset ∧ (∃ t, exec (.add 0 1) State.reset = .next t) ∧
    exec (.add 0 8) State.reset = .refused .invalidRegisterIndex ∧
    Reg.r2 ∉ readRegs (.add 0 8) State.reset :=
  ⟨⟨_, rfl, by decide⟩, by decide, ⟨_, rfl⟩, rfl, by decide⟩

theorem witness_AdvanceByOperandCount :
    (∃ t, (load [0x01]).params.Valid ∧ (load [0x01]).status = .run ∧ Fetches (load [0x01]) .hlt ∧
      Instr.hlt.mnemonic.isControlTransfer = false ∧ step (load [0x01]) = .next t ∧
      t.status ≠ .fault) ∧
    (∃ s t : State, s.status = .run ∧ Fetches s (.jmp 0) ∧ reg 0 = some .r0 ∧
      (s.reg .r0).toNat = s.pc ∧ step s = .next t) :=
  ⟨⟨_, Params.default_valid, rfl, fetches_hlt, rfl, rfl, by decide⟩,
    ⟨load [0x50, 0], _, rfl, ⟨⟨0x50, 0, 0⟩, by decide, by decide⟩, by decide, by decide, rfl⟩⟩

/-- Both disjuncts: the reset state meets an undefined opcode, PC = 256 the largest fetch address. -/
theorem witness_FatalErrorChangesOnlyStatusAndErr :
    (∃ t, State.reset.status = .run ∧ State.reset.pc ≤ 256 ∧ step State.reset = .next t ∧
      t.status = .fault) ∧
    (∃ t, ({ State.reset with pc := 256 } : State).status = .run ∧ (256 : Nat) ≤ 256 ∧
      step { State.reset with pc := 256 } = .next t ∧ t.status = .fault) :=
  ⟨⟨_, rfl, by decide, rfl, rfl⟩, ⟨_, rfl, by decide, rfl, rfl⟩⟩

theorem witness_OnlyHltHalts :
    ∃ t, (load [0x01]).params.Valid ∧ (load [0x01]).status = .run ∧ step (load [0x01]) = .next t ∧
      t.status = .halt := ⟨_, Params.default_valid, rfl, rfl, rfl⟩

theorem witness_ParametersNeverChange : ∃ t, step (load [0x99, 7, 9]) = .next t := ⟨_, rfl⟩

/-- Program P7 of 95_test_vectors.md in its third cycle: PUSH R0 at 6 with SP = 9 stores to 8, which is
the next PC. -/
theorem witness_PushedByteSeenByNextFetch :
    ∃ s t : State, s.params.Valid ∧ Memory.wf s.mem ∧ s.status = .run ∧ reg 0 = some .r0 ∧
      exec (.push 0) s = .next t ∧ t.status = .run ∧ t.Fetchable ∧ (s.reg .r7 - 1).toNat = t.pc :=
  ⟨((placed Params.default 6 [0x4D, 0]).setReg .r7 9).setReg .r0 1, _, Params.default_valid,
    by decide, rfl, by decide, rfl, rfl, by unfold State.Fetchable; decide, by decide⟩

/-- A state meets the hypotheses of `StoredByteSeenByNextFetch` with the instruction `i` at PC and its
stack slot `k` bytes above the next PC. -/
def StoresAhead (s : State) (i : Instr) (k : Nat) : Prop :=
  ∃ t l, s.params.Valid ∧ Memory.wf s.mem ∧ s.status = .run ∧ Fetches s i ∧ step s = .next t ∧
    t.status = .run ∧ fetch t = .ok l ∧ (s.reg .r7 - 1).toNat = t.pc + k

/-- PUSH R0 at 6 (next PC 8) with SP = 9, 10, 11; CALL R1 at 6 to 0x20 with SP = 0x21, 0x22, 0x23. -/
theorem witness_StoredByteSeenByNextFetch :
    reg 0 = some .r0 ∧ reg 1 = some .r1 ∧
    StoresAhead ((placed Params.default 6 [0x4D, 0]).setReg .r7 9) (.push 0) 0 ∧
    StoresAhead ((placed Params.default 6 [0x4D, 0]).setReg .r7 10) (.push 0) 1 ∧
    StoresAhead ((placed Params.default 6 [0x4D, 0]).setReg .r7 11) (.push 0) 2 ∧
    StoresAhead (((placed Params.default 6 [0x48, 1]).setReg .r1 0x20).setReg .r7 0x21) (.call 1) 0 ∧
    StoresAhead (((placed Params.default 6 [0x48, 1]).setReg .r1 0x20).setReg .r7 0x22) (.call 1) 1 ∧
    StoresAhead (((placed Params.default 6 [0x48, 1]).setReg .r1 0x20).setReg .r7 0x23) (.call 1) 2 := by
  refine ⟨rfl, rfl, ?_, ?_, ?_, ?_, ?_, ?_⟩ <;>
    exact ⟨_, _, Params.default_valid, by decide, rfl, ⟨_, rfl, rfl⟩, rfl, rfl, rfl, by decide⟩

theorem witness_StopRequestOnlyHalts :
    State.reset.status = .run ∧ ({ State.reset with status := .fault } : State).status ≠ .run := by
  decide

theorem witness_ResetMeetsInvariant : Params.default.Valid ∧ ext.Valid ∧ small.Valid :=
  ⟨Params.default_valid, ext_valid, small_valid⟩

theorem load_inv : (load [0x4D, 0]).Inv where
  params := Params.default_valid
  memWf := by decide
  memBound := by decide
  pcBound := by decide
  errFault := by decide
  errAddress := fun _ h => by cases h
  errOpcode := fun _ _ h => by cases h

theorem witness_StepKeepsInvariant :
    ∃ t, (load [0x4D, 0]).Inv ∧ step (load [0x4D, 0]) = .next t := ⟨_, load_inv, rfl⟩

/-- A state reached by loading, a tick and a stop request. -/
theorem witness_ReachableMeetsInvariant :
    ∃ s, Params.default.Valid ∧ Reachable Params.default s ∧ s.status = .halt ∧ s.pc = 3 :=
  ⟨_, Params.default_valid,
    .stopped _ (.ticked _ _ (.launched [0x99, 0, 8] _ rfl) rfl), rfl, rfl⟩

end Sys2Proof.Tests
end

/-! # Proofs: what every step keeps of the state (10_state.md) -/

namespace Sys2Proof

theorem Mnemonic.operandCount_le_two (m : Mnemonic) : m.operandCount ≤ 2 := by
  cases m <;> decide

end Sys2Proof

namespace Sys2Proof.Machine

open Sys2Proof

/-! ### What a step keeps -/

/-- A step to a next state either leaves everything but the run latch and the error record as it was
(a stopped clock, a fatal error), or is the effect of the fetched instruction. -/
theorem step_keeps_or_completes {s t : State} (h : step s = .next t) :
    (t.regs = s.regs ∧ t.pc = s.pc ∧ t.fl = s.fl ∧ t.mem = s.mem ∧ t.out = s.out ∧
      t.params = s.params) ∨
    ∃ i, Fetches s i ∧ Completes i s t := by
  rcases step_next h with
    ⟨-, rfl⟩ | ⟨-, k, -, -, rfl⟩ | ⟨-, -, rfl⟩ | ⟨-, a, rfl, -, -⟩ | ⟨-, -, i, hi, -, -, -, hc⟩
  · exact .inl ⟨rfl, rfl, rfl, rfl, rfl, rfl⟩
  · exact .inl ⟨rfl, rfl, rfl, rfl, rfl, rfl⟩
  · exact .inl ⟨rfl, rfl, rfl, rfl, rfl, rfl⟩
  · exact .inl ⟨rfl, rfl, rfl, rfl, rfl, rfl⟩
  · exact .inr ⟨i, hi, hc⟩

/-! ### The invariant -/

/-- The invariant makes a running machine one with an empty error record. -/
theorem State.Inv.err_eq_none {s : State} (hs : s.Inv) (hr : s.status = .run) : s.err = none := by
  have hne : ¬ s.err.isSome := fun h => by
    have := hs.errFault.mpr h
    simp [hr] at this
  simpa using hne

/-- A fatal error whose payload is right keeps the invariant: only the run latch and the error record
change. -/
theorem State.Inv.takeFatal {s : State} {e : FatalError} (hs : s.Inv)
    (haddr : ∀ a, e = .outOfBoundsAccess a → s.params.memSize ≤ a ∧ a ≤ 258)
    (hop : ∀ p op, e = .unknownOpcode p op →
      p = s.pc ∧ Memory.read s.mem p = op ∧ dispatch s.params op = none) :
    (takeFatal e s).Inv where
  params := hs.params
  memWf := hs.memWf
  memBound := hs.memBound
  pcBound := hs.pcBound
  errFault := by simp
  errAddress a ha := haddr a (Option.some.inj ha)
  errOpcode p op hp := hop p op (Option.some.inj hp)

theorem State.Inv.takeFatal_outOfBounds {s : State} {a : Nat} (hs : s.Inv)
    (hlow : s.params.memSize ≤ a) (hhigh : a ≤ 258) :
    (Machine.takeFatal (.outOfBoundsAccess a) s).Inv :=
  hs.takeFatal (fun _ e => by cases e; exact ⟨hlow, hhigh⟩) (fun _ _ e => by cases e)

theorem State.Inv.takeFatal_unknownOpcode {s : State} (hs : s.Inv)
    (hd : dispatch s.params (Memory.read s.mem s.pc) = none) :
    (Machine.takeFatal (.unknownOpcode s.pc (Memory.read s.mem s.pc)) s).Inv :=
  hs.takeFatal (fun _ e => by cases e) (fun _ _ e => by cases e; exact ⟨rfl, rfl, hd⟩)

/-- The only store of an instruction is one canonical, in-bounds write. -/
theorem Completes.mem_canonical {i : Instr} {s t : State} (hc : Completes i s t) (hs : s.Inv) :
    Memory.wf t.mem ∧ ∀ c ∈ t.mem, c.1 < s.params.memSize := by
  rcases hc.mem with hm | ⟨-, v, -, hb, hm⟩
  · rw [hm]; exact ⟨hs.memWf, hs.memBound⟩
  · rw [hm]; exact ⟨Memory.write_wf hs.memWf _ _, Memory.write_bound hs.memBound hb _⟩

/-- After a successful fetch PC ends at most at 256: the three fetched bytes are inside memory, so the
advance leaves at most the byte after them, and a jump target is one byte. -/
theorem Completes.pc_le {i : Instr} {s t : State} (hc : Completes i s t) (hp : s.params.Valid)
    (hf : s.Fetchable) (he : s.params.enabled i.mnemonic = true) : t.pc ≤ 256 := by
  rcases hc.pc with hpc | ⟨-, hpc⟩
  · have hcount := i.mnemonic.operandCount_le_two
    have hsize := hp.1.2
    unfold State.Fetchable at hf
    rw [hpc, hp.nops he]
    omega
  · omega

/-- An instruction that completes leaves a running machine in RUN or HALT. -/
theorem Completes.status_ne_fault {i : Instr} {s t : State} (hc : Completes i s t)
    (hr : s.status = .run) : t.status ≠ .fault := by
  rcases hc.status with h | ⟨-, h⟩ <;> simp [h, hr]

theorem Completes.inv {i : Instr} {s t : State} (hc : Completes i s t) (hs : s.Inv)
    (hr : s.status = .run) (hf : s.Fetchable) (he : s.params.enabled i.mnemonic = true) : t.Inv := by
  obtain ⟨hwf, hbound⟩ := hc.mem_canonical hs
  have herr : t.err = none := hc.err.trans (hs.err_eq_none hr)
  exact
    { params := hc.params ▸ hs.params
      memWf := hwf
      memBound := hc.params ▸ hbound
      pcBound := hc.pc_le hs.params hf he
      errFault := by simp [herr, hc.status_ne_fault hr]
      errAddress := by simp [herr]
      errOpcode := by simp [herr] }

/-- Settles O48: the five things a step can do, each keeping the invariant. -/
theorem stepKeepsInvariant : Obligations.StepKeepsInvariant := by
  intro s t hs h
  have hpc := hs.pcBound
  rcases step_next h with ⟨-, rfl⟩ | ⟨-, k, hk, hb, rfl⟩ | ⟨-, hd, rfl⟩ | ⟨-, a, rfl, hb, ha⟩ |
    ⟨hr, hf, i, -, he, -, -, hc⟩
  · exact hs
  · exact hs.takeFatal_outOfBounds hb (by omega)
  · exact hs.takeFatal_unknownOpcode hd
  · exact hs.takeFatal_outOfBounds hb (by omega)
  · exact hc.inv hs hr hf he

theorem State.resetWith_inv {p : Params} (hp : p.Valid) : (State.resetWith p).Inv where
  params := hp
  memWf := resetWith_mem_wf p
  memBound := by simp [State.resetWith]
  pcBound := by simp [State.resetWith]
  errFault := by simp [State.resetWith]
  errAddress := by simp [State.resetWith]
  errOpcode := by simp [State.resetWith]

/-- Settles O47. -/
theorem resetMeetsInvariant : Obligations.ResetMeetsInvariant :=
  ⟨State.resetWith_inv Params.default_valid, fun _ hp => State.resetWith_inv hp⟩

/-! ### Reset and stopped machines -/

theorem State.resetWith_memRead {p : Params} {a : Nat} (ha : a < p.memSize) :
    memRead (State.resetWith p) a = .ok 0 := memRead_ok ha

theorem State.resetWith_reg_ne (p : Params) {r : Reg} (hr : r ≠ .r7) :
    (State.resetWith p).reg r = 0 := by
  cases r
  case r7 => exact absurd rfl hr
  all_goals rfl

/-- Settles O9. -/
theorem resetLeavesStatedValues : Obligations.ResetLeavesStatedValues :=
  ⟨fun p => ⟨fun _ => State.resetWith_reg_ne p, rfl, rfl, rfl, rfl, rfl, rfl, rfl,
    fun _ => State.resetWith_memRead⟩, rfl, rfl, rfl⟩

/-- A state that a tick leaves alone is left alone by any number of ticks. -/
theorem run_of_step_self {M : Host.Core} {s : M.State} (h : M.step s = .next s) (n : Nat) :
    M.run n s = .next s := by
  induction n with
  | zero => rfl
  | succ n ih => simp only [Host.Core.run, h, ih]

/-- Settles O14: a tick of a stopped machine answers the same state. -/
theorem stoppedMachineNeverChanges : Obligations.StoppedMachineNeverChanges := by
  intro s hs n
  have hr : s.status ≠ .run := by rcases hs with h | h <;> simp [h]
  exact run_of_step_self (M := core) (step_of_not_run hr) n

/-! ### What changes in a step -/

/-- Settles O37: FL is kept or written by a CMP, which never writes NONE. -/
theorem flagsNeverReturnToNone : Obligations.FlagsNeverReturnToNone := by
  intro s t h hs
  rcases step_keeps_or_completes h with ⟨-, -, hfl, -⟩ | ⟨i, -, hc⟩
  · rwa [hfl]
  · rcases hc.fl with hfl | ⟨-, -, -, hne⟩
    · rwa [hfl]
    · exact hne

/-- Settles O38. -/
theorem onlyPrnAppendsOutput : Obligations.OnlyPrnAppendsOutput := by
  intro s t h
  rcases step_keeps_or_completes h with ⟨-, -, -, -, hout, -⟩ | ⟨i, hi, hc⟩
  · exact .inl hout
  · rcases hc.out with hout | ⟨a, r, rfl, hr, hout⟩
    · exact .inl hout
    · exact .inr ⟨a, r, hi, hr, hout⟩

/-- Settles O44. -/
theorem parametersNeverChange : Obligations.ParametersNeverChange := by
  intro s t h
  have hp : t.params = s.params := by
    rcases step_keeps_or_completes h with ⟨-, -, -, -, -, hp⟩ | ⟨i, -, hc⟩
    · exact hp
    · exact hc.params
  exact ⟨hp, by rw [hp]⟩

theorem fetches_cmp_of_fl_ne {s t : State} (h : step s = .next t) (hne : t.fl ≠ s.fl) :
    ∃ a b, Fetches s (.cmp a b) := by
  rcases step_keeps_or_completes h with ⟨-, -, hfl, -⟩ | ⟨i, hi, hc⟩
  · exact absurd hfl hne
  · rcases hc.fl with hfl | ⟨a, b, rfl, -⟩
    · exact absurd hfl hne
    · exact ⟨a, b, hi⟩

theorem mem_writtenRegs_of_reg_ne {s t : State} {q : Reg} (h : step s = .next t)
    (hne : t.reg q ≠ s.reg q) : ∃ i, Fetches s i ∧ q ∈ writtenRegs i := by
  rcases step_keeps_or_completes h with ⟨hregs, -⟩ | ⟨i, hi, hc⟩
  · exact absurd (congrArg (·.get q) hregs) hne
  · exact ⟨i, hi, by_contra fun hq => hne (hc.regs q hq)⟩

/-! ### Two runs of one instruction, side by side

Noninterference compares the results of one instruction from two states that differ in one place. -/

/-- Both results are next states that `R` relates, or both are the same refusal. -/
inductive ResultRel (R : State → State → Prop) : Result → Result → Prop where
  | next {t u : State} : R t u → ResultRel R (.next t) (.next u)
  | refused (e : Refusal) : ResultRel R (.refused e) (.refused e)

section
variable {R : State → State → Prop}

theorem ResultRel.of_next {x y : Result} {t : State} (h : ResultRel R x y) (hx : x = .next t) :
    ∃ u, y = .next u ∧ R t u := by
  cases h with
  | next hR => cases hx; exact ⟨_, rfl, hR⟩
  | refused e => cases hx

theorem ResultRel.of_refused {x y : Result} {e : Refusal} (h : ResultRel R x y)
    (hx : x = .refused e) : y = .refused e := by
  cases h with
  | next hR => cases hx
  | refused e' => exact hx

theorem ResultRel.withReg {o : Byte} {k k' : Reg → Result}
    (hk : ∀ r, reg o = some r → ResultRel R (k r) (k' r)) :
    ResultRel R (withReg o k) (withReg o k') := by
  cases ho : reg o with
  | none => rw [withReg_none ho, withReg_none ho]; exact .refused _
  | some r => rw [withReg_some ho, withReg_some ho]; exact hk r ho

/-- Two loads of the same address from equal memories. -/
theorem ResultRel.memRead {start start' s s' : State} {a a' : Nat} {k k' : Byte → Result}
    (hparams : s'.params = s.params) (hmem : s'.mem = s.mem) (ha : a' = a)
    (hfatal : ∀ e, R (takeFatal e start) (takeFatal e start'))
    (hk : ∀ v, ResultRel R (k v) (k' v)) :
    ResultRel R (orFatal start (memRead s a) k) (orFatal start' (memRead s' a') k') := by
  have heq : Machine.memRead s' a' = Machine.memRead s a := by
    simp only [Machine.memRead, hparams, hmem, ha]
  rw [heq]
  cases Machine.memRead s a with
  | ok v => exact hk v
  | error e => exact .next (hfatal e)

/-- Two stores of the same byte to the same address of equal memories. -/
theorem ResultRel.memWrite {start start' s s' : State} {a a' : Nat} {v v' : Byte}
    {k k' : State → Result} (hparams : s'.params = s.params) (hmem : s'.mem = s.mem)
    (ha : a' = a) (hv : v' = v) (hfatal : ∀ e, R (takeFatal e start) (takeFatal e start'))
    (hk : ∀ m, ResultRel R (k { s with mem := m }) (k' { s' with mem := m })) :
    ResultRel R (orFatal start (memWrite s a v) k) (orFatal start' (memWrite s' a' v') k') := by
  subst ha hv
  by_cases hb : a' < s.params.memSize
  · rw [memWrite_ok hb, memWrite_ok (hparams ▸ hb), hmem]
    exact hk _
  · have hb := Nat.le_of_not_lt hb
    rw [memWrite_error hb, memWrite_error (hparams ▸ hb)]
    exact .next (hfatal _)

/-- Two ALU cycles with equal operand values. -/
theorem ResultRel.aluCycle {op : AluOp} {m : Mnemonic} {a b : Byte} {s s' : State}
    (ha : ∀ r, reg a = some r → s'.reg r = s.reg r) (hb : ∀ r, reg b = some r → s'.reg r = s.reg r)
    (hreg : ∀ r v, R ((s.setReg r v).advance m) ((s'.setReg r v).advance m))
    (hfl : ∀ g, R ((s.setFl g).advance m) ((s'.setFl g).advance m)) :
    ResultRel R (aluCycle op m a b s) (aluCycle op m a b s') := by
  refine .withReg fun r hr => .withReg fun p hp => ?_
  cases op <;> simp only [alu, ha r hr, hb p hp]
  case cmp => exact .next (hfl _)
  case div | mod =>
    by_cases hz : s.reg p = 0#8
    · simp only [hz, if_true]; exact .refused _
    · simp only [hz, if_false]; exact .next (hreg _ _)
  all_goals exact .next (hreg _ _)

end

/-! ### FL -/

/-- `t` and `u` are the same state but for FL: a value that both runs wrote, or the values `f₀` and
`f` that the runs had before. -/
def FlCarried (f₀ f : Flags) (t u : State) : Prop :=
  ∃ g, (g = t.fl ∨ (t.fl = f₀ ∧ g = f)) ∧ u = t.setFl g

theorem FlCarried.kept {f₀ f : Flags} {t : State} (h : t.fl = f₀) : FlCarried f₀ f t (t.setFl f) :=
  ⟨f, .inr ⟨h, rfl⟩, rfl⟩

theorem FlCarried.written {f₀ f : Flags} (t : State) : FlCarried f₀ f t t := ⟨t.fl, .inl rfl, rfl⟩

theorem aluCycle_setFl (op : AluOp) (m : Mnemonic) (a b : Byte) (s : State) (f : Flags) :
    ResultRel (FlCarried s.fl f) (aluCycle op m a b s) (aluCycle op m a b (s.setFl f)) :=
  .aluCycle (fun _ _ => rfl) (fun _ _ => rfl) (fun _ _ => .kept rfl) (fun _ => .written _)

/-- An instruction other than a conditional jump does the same whatever FL is. -/
theorem exec_setFl {i : Instr} (s : State) (f : Flags) (hjeq : i.mnemonic ≠ .jeq)
    (hjne : i.mnemonic ≠ .jne) (hjgt : i.mnemonic ≠ .jgt) :
    ResultRel (FlCarried s.fl f) (exec i s) (exec i (s.setFl f)) := by
  cases i with
  | ldi a imm => exact .withReg fun r _ => .next (.kept rfl)
  | prn a => exact .withReg fun r _ => .next (.kept rfl)
  | hlt => exact .next (.kept rfl)
  | mul a b => exact aluCycle_setFl .mul .mul a b s f
  | add a b => exact aluCycle_setFl .add .add a b s f
  | cmp a b => exact aluCycle_setFl .cmp .cmp a b s f
  | sub a b => exact aluCycle_setFl .sub .sub a b s f
  | div a b => exact aluCycle_setFl .div .div a b s f
  | mod a b => exact aluCycle_setFl .mod .mod a b s f
  | push a =>
    exact .withReg fun r _ => .memWrite rfl rfl rfl rfl (fun _ => .kept rfl) fun _ => .next (.kept rfl)
  | pop a =>
    exact .withReg fun r _ => .memRead rfl rfl rfl (fun _ => .kept rfl) fun _ => .next (.kept rfl)
  | call a =>
    exact .withReg fun r _ => .memWrite rfl rfl rfl rfl (fun _ => .kept rfl) fun _ => .next (.kept rfl)
  | ret => exact .memRead rfl rfl rfl (fun _ => .kept rfl) fun _ => .next (.kept rfl)
  | jmp a => exact .withReg fun r _ => .next (.kept rfl)
  | jeq a => exact absurd rfl hjeq
  | jne a => exact absurd rfl hjne
  | jgt a => exact absurd rfl hjgt

theorem conditionalJump_keeps {cond : Flags → Bool} {m : Mnemonic} {a : Byte} {s t : State}
    (h : conditionalJump cond m a s = .next t) : t.regs = s.regs ∧ t.mem = s.mem := by
  obtain ⟨r, -, rfl⟩ := conditionalJump_next h
  split <;> exact ⟨rfl, rfl⟩

/-- No instruction copies FL to a register or to memory: a conditional jump writes neither, and the
others do not read FL. -/
theorem exec_setFl_regs_mem {i : Instr} {s t u : State} {f : Flags} (ht : exec i s = .next t)
    (hu : exec i (s.setFl f) = .next u) : u.regs = t.regs ∧ u.mem = t.mem := by
  have hother (hjeq : i.mnemonic ≠ .jeq) (hjne : i.mnemonic ≠ .jne) (hjgt : i.mnemonic ≠ .jgt) :
      u.regs = t.regs ∧ u.mem = t.mem := by
    obtain ⟨u', hu', g, -, rfl⟩ := (exec_setFl s f hjeq hjne hjgt).of_next ht
    rw [hu] at hu'; cases hu'
    exact ⟨rfl, rfl⟩
  cases i with
  | jeq a | jne a | jgt a =>
    obtain ⟨htr, htm⟩ := conditionalJump_keeps ht
    obtain ⟨hur, hum⟩ := conditionalJump_keeps hu
    exact ⟨hur.trans htr.symm, hum.trans htm.symm⟩
  | _ => exact hother (by simp [Instr.mnemonic]) (by simp [Instr.mnemonic]) (by simp [Instr.mnemonic])

/-- Settles O36. -/
theorem onlyCmpWritesOnlyJumpsReadFlags : Obligations.OnlyCmpWritesOnlyJumpsReadFlags := by
  refine ⟨fun s t => fetches_cmp_of_fl_ne, fun i s f hjeq hjne hjgt => ?_,
    fun i s f t u => exec_setFl_regs_mem⟩
  have hrel := exec_setFl s f hjeq hjne hjgt
  refine ⟨fun t ht => ?_, fun e he => hrel.of_refused he⟩
  obtain ⟨u, hu, g, hg, rfl⟩ := hrel.of_next ht
  exact ⟨g, hg, hu⟩

/-! ### One register -/

theorem State.setReg_setReg_same (s : State) (q : Reg) (v w : Byte) :
    (s.setReg q v).setReg q w = s.setReg q w := by
  cases q <;> rfl

theorem State.setReg_comm (s : State) {q r : Reg} (h : q ≠ r) (v w : Byte) :
    (s.setReg q v).setReg r w = (s.setReg r w).setReg q v := by
  have hregs : (s.regs.set q v).set r w = (s.regs.set r w).set q v := by
    refine RegFile.ext_get fun p => ?_
    simp only [RegFile.get_set]
    split_ifs with hr hq
    · exact absurd (hq.symm.trans hr) h
    all_goals rfl
  exact congrArg (fun f => ({ s with regs := f } : State)) hregs

/-- `t` and `u` are the same state but for the register `q`. -/
def SameButReg (q : Reg) (t u : State) : Prop := ∃ w, u = t.setReg q w

namespace SameButReg

variable {q : Reg} {t u : State}

theorem reg_ne (h : SameButReg q t u) {p : Reg} (hp : p ≠ q) : u.reg p = t.reg p := by
  obtain ⟨w, rfl⟩ := h
  exact State.setReg_reg_ne t hp w

/-- An update that neither reads nor writes registers keeps the two states apart in `q` only. -/
theorem map (h : SameButReg q t u) (f : State → State)
    (hf : ∀ w, f (t.setReg q w) = (f t).setReg q w) : SameButReg q (f t) (f u) := by
  obtain ⟨w, rfl⟩ := h
  exact ⟨w, hf w⟩

/-- Writing the same value to the same register, `q` or another. -/
theorem setReg (h : SameButReg q t u) (r : Reg) (v : Byte) :
    SameButReg q (t.setReg r v) (u.setReg r v) := by
  obtain ⟨w, rfl⟩ := h
  by_cases hq : q = r
  · subst hq
    exact ⟨v, by simp only [State.setReg_setReg_same]⟩
  · exact ⟨w, State.setReg_comm t hq w v⟩

theorem decSp (h : SameButReg q t u) (h7 : Reg.r7 ≠ q) : SameButReg q t.decSp u.decSp := by
  rw [State.decSp_eq, State.decSp_eq, h.reg_ne h7]
  exact h.setReg _ _

theorem incSp (h : SameButReg q t u) (h7 : Reg.r7 ≠ q) : SameButReg q t.incSp u.incSp := by
  rw [State.incSp_eq, State.incSp_eq, h.reg_ne h7]
  exact h.setReg _ _

theorem advance (h : SameButReg q t u) (m : Mnemonic) :
    SameButReg q (t.advance m) (u.advance m) := h.map (·.advance m) fun _ => rfl

theorem setPc (h : SameButReg q t u) (n : Nat) : SameButReg q (t.setPc n) (u.setPc n) :=
  h.map (·.setPc n) fun _ => rfl

theorem takeFatal (h : SameButReg q t u) (e : FatalError) :
    SameButReg q (takeFatal e t) (takeFatal e u) := h.map (Machine.takeFatal e) fun _ => rfl

theorem setMem (h : SameButReg q t u) (m : Memory) :
    SameButReg q { t with mem := m } { u with mem := m } := h.map ({ · with mem := m }) fun _ => rfl

theorem params (h : SameButReg q t u) : u.params = t.params := by obtain ⟨w, rfl⟩ := h; rfl
theorem mem (h : SameButReg q t u) : u.mem = t.mem := by obtain ⟨w, rfl⟩ := h; rfl
theorem pc (h : SameButReg q t u) : u.pc = t.pc := by obtain ⟨w, rfl⟩ := h; rfl
theorem fl (h : SameButReg q t u) : u.fl = t.fl := by obtain ⟨w, rfl⟩ := h; rfl

/-- Where `q` is not the stack pointer, both states access the same stack address. -/
theorem sp (h : SameButReg q t u) (h7 : Reg.r7 ≠ q) : u.sp.toNat = t.sp.toNat :=
  congrArg BitVec.toNat (h.reg_ne h7)

end SameButReg

theorem reg_ne_of_not_mem {a : Byte} {q r : Reg} (hq : q ∉ (reg a).toList) (hr : reg a = some r) :
    r ≠ q := by
  rintro rfl
  simp [hr] at hq

section
variable {q : Reg} {s s' : State}

theorem aluCycle_sameButReg {op : AluOp} {m : Mnemonic} {a b : Byte} (h : SameButReg q s s')
    (hq : q ∉ (reg a).toList ++ (reg b).toList) :
    ResultRel (SameButReg q) (aluCycle op m a b s) (aluCycle op m a b s') := by
  obtain ⟨hqa, hqb⟩ := not_or.mp (mt List.mem_append.mpr hq)
  exact .aluCycle (fun r hr => h.reg_ne (reg_ne_of_not_mem hqa hr))
    (fun r hr => h.reg_ne (reg_ne_of_not_mem hqb hr))
    (fun r v => (h.setReg r v).advance m) (fun g => (h.map (·.setFl g) fun _ => rfl).advance m)

/-- A conditional jump reads its register when it is taken. -/
theorem conditionalJump_sameButReg {cond : Flags → Bool} {m : Mnemonic} {a : Byte}
    (h : SameButReg q s s') (hq : cond s.fl = true → q ∉ (reg a).toList) :
    ResultRel (SameButReg q) (conditionalJump cond m a s) (conditionalJump cond m a s') := by
  refine .withReg fun r hr => .next ?_
  rw [h.fl]
  split
  · next hc => rw [h.reg_ne (reg_ne_of_not_mem (hq hc) hr)]; exact h.setPc _
  · exact h.advance m

theorem execPush_sameButReg {a : Byte} (h : SameButReg q s s') (h7 : Reg.r7 ≠ q)
    (hqa : q ∉ (reg a).toList) : ResultRel (SameButReg q) (execPush a s) (execPush a s') := by
  have hl := h.decSp h7
  exact .withReg fun r hr => .memWrite hl.params hl.mem (hl.sp h7)
    (hl.reg_ne (reg_ne_of_not_mem hqa hr)) h.takeFatal fun m => .next ((hl.setMem m).advance _)

theorem execPop_sameButReg {a : Byte} (h : SameButReg q s s') (h7 : Reg.r7 ≠ q) :
    ResultRel (SameButReg q) (execPop a s) (execPop a s') :=
  .withReg fun r _ => .memRead h.params h.mem (h.sp h7) h.takeFatal
    fun v => .next (((h.setReg r v).incSp h7).advance _)

theorem execCall_sameButReg {a : Byte} (h : SameButReg q s s') (h7 : Reg.r7 ≠ q)
    (hqa : q ∉ (reg a).toList) : ResultRel (SameButReg q) (execCall a s) (execCall a s') := by
  have hl := h.decSp h7
  refine .withReg fun r hr => .memWrite hl.params hl.mem (hl.sp h7) (by rw [h.pc]) h.takeFatal
    fun m => .next ?_
  have hm := hl.setMem m
  rw [hm.reg_ne (reg_ne_of_not_mem hqa hr)]
  exact hm.setPc _

theorem execRet_sameButReg (h : SameButReg q s s') (h7 : Reg.r7 ≠ q) :
    ResultRel (SameButReg q) (execRet s) (execRet s') :=
  .memRead h.params h.mem (h.sp h7) h.takeFatal fun v => .next ((h.setPc v.toNat).incSp h7)

end

/-- A register that the instruction does not read has no influence on anything but itself. -/
theorem exec_sameButReg {i : Instr} {s s' : State} {q : Reg} (h : SameButReg q s s')
    (hq : q ∉ readRegs i s) : ResultRel (SameButReg q) (exec i s) (exec i s') := by
  cases i with
  | ldi a imm => exact .withReg fun r _ => .next ((h.setReg r imm).advance _)
  | prn a =>
    refine .withReg fun r hr => .next ?_
    rw [h.reg_ne (reg_ne_of_not_mem hq hr)]
    exact (h.map (·.emit (s.reg r)) fun _ => rfl).advance _
  | hlt => exact .next ((h.map (·.setStatus .halt) fun _ => rfl).advance _)
  | mul a b => exact aluCycle_sameButReg (op := .mul) (m := .mul) h hq
  | add a b => exact aluCycle_sameButReg (op := .add) (m := .add) h hq
  | cmp a b => exact aluCycle_sameButReg (op := .cmp) (m := .cmp) h hq
  | sub a b => exact aluCycle_sameButReg (op := .sub) (m := .sub) h hq
  | div a b => exact aluCycle_sameButReg (op := .div) (m := .div) h hq
  | mod a b => exact aluCycle_sameButReg (op := .mod) (m := .mod) h hq
  | push a =>
    obtain ⟨h7, hqa⟩ := not_or.mp (mt List.mem_cons.mpr hq)
    exact execPush_sameButReg h (Ne.symm h7) hqa
  | pop a => exact execPop_sameButReg h (Ne.symm (List.ne_of_not_mem_cons hq))
  | call a =>
    obtain ⟨h7, hqa⟩ := not_or.mp (mt List.mem_cons.mpr hq)
    exact execCall_sameButReg h (Ne.symm h7) hqa
  | ret => exact execRet_sameButReg h (Ne.symm (List.ne_of_not_mem_cons hq))
  | jmp a =>
    refine .withReg fun r hr => .next ?_
    rw [h.reg_ne (reg_ne_of_not_mem hq hr)]
    exact h.setPc _
  | jeq a =>
    refine conditionalJump_sameButReg h fun hc => ?_
    simpa [readRegs, show s.fl = .equal by simpa [condEqual] using hc] using hq
  | jne a =>
    refine conditionalJump_sameButReg h fun hc => ?_
    simpa [readRegs, show s.fl ≠ .equal by simpa [condNotEqual] using hc] using hq
  | jgt a =>
    refine conditionalJump_sameButReg h fun hc => ?_
    simpa [readRegs, show s.fl = .greater by simpa [condGreater] using hc] using hq

/-- Settles O40. -/
theorem registerAccessesAreListed : Obligations.RegisterAccessesAreListed := by
  refine ⟨fun s t q => mem_writtenRegs_of_reg_ne, fun i s q v hq => ?_⟩
  have hrel := exec_sameButReg ⟨v, rfl⟩ hq
  refine ⟨fun t ht => ?_, fun e he => hrel.of_refused he⟩
  obtain ⟨u, hu, hs⟩ := hrel.of_next ht
  refine ⟨u, hu, fun p hp => hs.reg_ne (List.ne_of_not_mem_cons hp), ?_⟩
  obtain ⟨w, rfl⟩ := hs
  exact ⟨rfl, rfl, rfl, rfl, rfl, rfl, rfl⟩

end Sys2Proof.Machine

/-! # Proofs: memory (20_memory.md) -/

namespace Sys2Proof.Machine

open Sys2Proof

/-! ### The canonical form -/

theorem Memory.wf.tail {c : Host.Cell} {m : Memory} (h : Memory.wf (c :: m)) : Memory.wf m :=
  ⟨h.1.of_cons, fun d hd => h.2 d (List.mem_cons_of_mem c hd)⟩

theorem Memory.wf.head_lt {c : Host.Cell} {m : Memory} (h : Memory.wf (c :: m)) :
    ∀ d ∈ m, c.1 < d.1 := fun _ => List.rel_of_pairwise_cons h.1

theorem Memory.wf.head_ne_unlisted {c : Host.Cell} {m : Memory} (h : Memory.wf (c :: m)) :
    c.2 ≠ Memory.unlisted := h.2 c List.mem_cons_self

theorem Memory.read_head (c : Host.Cell) (m : Memory) : Memory.read (c :: m) c.1 = c.2 := by
  simp [Memory.read]

theorem Memory.read_tail {a : Nat} {c : Host.Cell} (h : a ≠ c.1) (m : Memory) :
    Memory.read (c :: m) a = Memory.read m a := by
  simp [Memory.read, h]

/-- A canonical memory lists exactly the bytes that it reads and that are not the unlisted one. -/
theorem Memory.mem_iff_read {m : Memory} (h : Memory.wf m) (c : Host.Cell) :
    c ∈ m ↔ c.2 ≠ Memory.unlisted ∧ Memory.read m c.1 = c.2 := by
  induction m with
  | nil => simpa using fun hne => Ne.symm hne
  | cons d rest ih =>
    rw [List.mem_cons, ih h.tail]
    by_cases hcd : c.1 = d.1
    · have hrest : Memory.read rest c.1 = Memory.unlisted := Memory.read_below (hcd ▸ h.head_lt)
      have hread : Memory.read (d :: rest) c.1 = d.2 := hcd ▸ Memory.read_head d rest
      rw [hrest, hread]
      constructor
      · rintro (rfl | ⟨hne, heq⟩)
        · exact ⟨h.head_ne_unlisted, rfl⟩
        · exact absurd heq.symm hne
      · rintro ⟨-, heq⟩
        exact .inl (Prod.ext hcd heq.symm)
    · have hne : c ≠ d := fun e => hcd (congrArg Prod.fst e)
      simp [Memory.read_tail hcd, hne]

/-- Settles O8: both lists rise strictly and list the same cells. -/
theorem equalReadsAreEqualMemories : Obligations.EqualReadsAreEqualMemories := by
  intro m n hm hn hread
  have hasymm : Std.Asymm fun c d : Host.Cell => c.1 < d.1 := ⟨fun _ _ => Nat.lt_asymm⟩
  refine hm.1.eq_of_mem_iff hn.1 fun c => ?_
  rw [Memory.mem_iff_read hm, Memory.mem_iff_read hn, hread]

/-! ### The memory write -/

theorem memRead_write_same {s : State} {a : Nat} (hwf : Memory.wf s.mem)
    (ha : a < s.params.memSize) (v : Byte) :
    memRead { s with mem := Memory.write s.mem a v } a = .ok v := by
  simp only [memRead, ha, if_true, Memory.read_write_same hwf]

theorem memRead_write_ne {a b : Nat} (h : b ≠ a) (s : State) (v : Byte) :
    memRead { s with mem := Memory.write s.mem a v } b = memRead s b := by
  simp only [memRead, Memory.read_write_ne h]

/-- Settles O7. -/
theorem memWriteSetsOneByte : Obligations.MemWriteSetsOneByte := by
  intro s a v hwf
  refine ⟨fun ha => ⟨_, memWrite_ok ha v, memRead_write_same hwf ha v, ?_, rfl⟩,
    fun ha => memWrite_error ha v⟩
  exact fun b hb => memRead_write_ne hb s v

/-- A store changes the byte it writes and no other. -/
theorem MemKept.of_write {s t : State} {a : Nat} {v : Byte}
    (h : t.mem = Memory.write s.mem a v) : MemKept [a] s t := by
  intro b hb
  rw [h, Memory.read_write_ne (List.ne_of_not_mem_cons hb)]

/-- Settles O39. -/
theorem onlyPushAndCallStore : Obligations.OnlyPushAndCallStore := by
  intro s t h
  rcases step_keeps_or_completes h with ⟨-, -, -, hmem, -⟩ | ⟨i, hi, hc⟩
  · exact .inl hmem
  · rcases hc.mem with hmem | ⟨a, v, hia, -, hmem⟩
    · exact .inl hmem
    · have hstored : storedAddresses i s = [s.decSp.sp.toNat] := by
        rcases hia with rfl | rfl <;> rfl
      exact .inr ⟨i, a, hi, hia, hstored, hstored ▸ .of_write hmem⟩

/-! ### The fetch at the top of memory -/

theorem step_of_not_fetchable {s : State} (hr : s.status = .run) (hf : ¬ s.Fetchable) :
    ∃ a, step s = .next (takeFatal (.outOfBoundsAccess a) s) := by
  rcases step_cases s with ⟨hr', -⟩ | ⟨-, k, -, -, e⟩ | ⟨-, hf', -⟩ | ⟨-, hf', -⟩
  · exact absurd hr hr'
  · exact ⟨s.pc + k, e⟩
  · exact absurd hf' hf
  · exact absurd hf' hf

/-- A running machine with a full memory meets an access outside memory in its fetch only: a stack
address is one byte. -/
theorem not_fetchable_of_step_outOfBounds {s t : State} {a : Nat} (hr : s.status = .run)
    (hsize : s.params.memSize = 256) (h : step s = .next t) (hfault : t.status = .fault)
    (herr : t.err = some (.outOfBoundsAccess a)) : ¬ s.Fetchable := by
  unfold State.Fetchable
  rcases step_next h with ⟨hr', -⟩ | ⟨-, k, hk, hb, -⟩ | ⟨-, -, rfl⟩ | ⟨-, b, -, hlow, hhigh⟩ |
    ⟨-, -, i, -, -, -, -, hc⟩
  · exact absurd hr hr'
  · omega
  · cases herr
  · omega
  · exact absurd hfault (hc.status_ne_fault hr)

/-- Settles O35: the access outside memory is the fetch's, and the last fetchable PC is 253. -/
theorem fullMemoryFaultsOnlyAtTop : Obligations.FullMemoryFaultsOnlyAtTop := by
  intro s hr hsize hpc
  have htop : ¬ s.Fetchable ↔ s.pc = 254 ∨ s.pc = 255 ∨ s.pc = 256 := by
    unfold State.Fetchable
    omega
  rw [← htop]
  constructor
  · rintro ⟨t, a, h, hfault, herr⟩
    exact not_fetchable_of_step_outOfBounds hr hsize h hfault herr
  · intro hf
    obtain ⟨a, h⟩ := step_of_not_fetchable hr hf
    exact ⟨_, a, h, rfl, rfl⟩

/-! ### A stored byte and the next fetch -/

/-- What a successful fetch latches, position by position. -/
theorem fetch_eq_ok {s : State} {l : Latch} (h : fetch s = .ok l) :
    s.Fetchable ∧ l.op = Memory.read s.mem s.pc ∧ l.a = Memory.read s.mem (s.pc + 1) ∧
      l.b = Memory.read s.mem (s.pc + 2) := by
  rcases fetch_cases s with ⟨hf, e⟩ | ⟨k, -, -, -, e⟩
  · rw [e] at h; cases h; exact ⟨hf, rfl, rfl, rfl⟩
  · rw [e] at h; cases h

theorem Fetches.fetchable {s : State} {i : Instr} (h : Fetches s i) : s.Fetchable := by
  obtain ⟨l, hl, -⟩ := h
  exact (fetch_eq_ok hl).1

theorem step_of_fetches {s : State} {i : Instr} (hr : s.status = .run) (h : Fetches s i) :
    step s = exec i s := by
  obtain ⟨l, hl, hd⟩ := h
  rw [step_run hr, hl]
  simp only [orFatal_ok, hd]

/-- The fetch latches the byte that memory holds at each of its three addresses. -/
theorem fetch_latches_read {s : State} {l : Latch} {n : Nat} {v : Byte} (h : fetch s = .ok l)
    (hv : Memory.read s.mem n = v) :
    (n = s.pc → l.op = v) ∧ (n = s.pc + 1 → l.a = v) ∧ (n = s.pc + 2 → l.b = v) := by
  obtain ⟨-, hop, ha, hb⟩ := fetch_eq_ok h
  subst hv
  exact ⟨fun e => e ▸ hop, fun e => e ▸ ha, fun e => e ▸ hb⟩

theorem State.decSp_reg (s : State) (r : Reg) :
    s.decSp.reg r = if r = .r7 then s.reg .r7 - 1 else s.reg r := by
  rw [State.decSp_eq, State.setReg_reg]
  rfl

theorem State.decSp_sp_toNat (s : State) : s.decSp.sp.toNat = (s.reg .r7 - 1).toNat :=
  congrArg BitVec.toNat s.decSp_sp

/-- A PUSH that leaves the clock running has stored its register's value at the lowered SP
(43_stack.md R121, R124). -/
theorem execPush_stored {a : Byte} {r : Reg} {s t : State} (hwf : Memory.wf s.mem)
    (hr : reg a = some r) (h : execPush a s = .next t) (ht : t.status = .run) :
    Memory.read t.mem (s.reg .r7 - 1).toNat = if r = .r7 then s.reg .r7 - 1 else s.reg r := by
  obtain ⟨q, hq, ⟨-, rfl⟩ | ⟨-, rfl⟩⟩ := execPush_next h
  · cases hr.symm.trans hq
    rw [← s.decSp_sp_toNat, ← s.decSp_reg]
    exact Memory.read_write_same hwf _ _
  · cases ht

/-- A CALL that leaves the clock running has stored its return address at the lowered SP
(44_control_transfer.md R131). -/
theorem execCall_stored {a : Byte} {s t : State} (hwf : Memory.wf s.mem)
    (h : execCall a s = .next t) (ht : t.status = .run) :
    Memory.read t.mem (s.reg .r7 - 1).toNat = trunc8 (s.pc + 2) := by
  obtain ⟨q, -, ⟨-, rfl⟩ | ⟨-, rfl⟩⟩ := execCall_next h
  · rw [← s.decSp_sp_toNat]
    exact Memory.read_write_same hwf _ _
  · cases ht

/-- The return address is one byte wherever the fetch succeeded: its own address was fetched. -/
theorem State.Fetchable.returnAddress_toNat {s : State} (hf : s.Fetchable) (hp : s.params.Valid) :
    (trunc8 (s.pc + 2)).toNat = s.pc + 2 := by
  have hsize := hp.1.2
  unfold State.Fetchable at hf
  rw [trunc8_toNat]
  omega

/-- Settles O45. -/
theorem pushedByteSeenByNextFetch : Obligations.PushedByteSeenByNextFetch := by
  intro s t a r _ hwf _ ha h ht hf hpc
  have hfetch := fetch_ok hf
  exact ⟨_, hfetch, (fetch_latches_read hfetch (execPush_stored hwf ha h ht)).1 hpc⟩

/-- Settles O50. -/
theorem storedByteSeenByNextFetch : Obligations.StoredByteSeenByNextFetch := by
  intro s t a r l hp hwf hr ha h ht hl
  refine ⟨fun hi => ?_, fun hi => ?_⟩
  · rw [step_of_fetches hr hi] at h
    exact fetch_latches_read hl (execPush_stored hwf ha h ht)
  · rw [step_of_fetches hr hi] at h
    rw [← hi.fetchable.returnAddress_toNat hp]
    obtain ⟨hop, hA, hB⟩ := fetch_latches_read hl (execCall_stored hwf h ht)
    exact ⟨fun e => congrArg BitVec.toNat (hop e), fun e => congrArg BitVec.toNat (hA e),
      fun e => congrArg BitVec.toNat (hB e)⟩

end Sys2Proof.Machine

/-! # Proofs: encoding and decoding (30_encoding.md) -/

namespace Sys2Proof

/-! ### An instruction is its mnemonic and its operand bytes -/

/-- The bytes after the operand count are no part of the instruction (R60). -/
@[simp] theorem instrOf_operandBytes (a b : Byte) (m : Mnemonic) :
    (instrOf a b m).operandBytes = [a, b].take m.operandCount := by cases m <;> rfl

/-- The formats F0, F1 and F2 of R50: the operand bytes determine the operands. -/
theorem instrOf_eq_of_operandBytes {i : Instr} {a b : Byte}
    (h : i.operandBytes = [a, b].take i.mnemonic.operandCount) : instrOf a b i.mnemonic = i := by
  cases i with
  | hlt | ret => rfl
  | prn x | push x | pop x | call x | jmp x | jeq x | jne x | jgt x =>
    obtain ⟨rfl, -⟩ := List.cons.inj h
    rfl
  | ldi x y | mul x y | add x y | cmp x y | sub x y | div x y | mod x y =>
    obtain ⟨rfl, hy⟩ := List.cons.inj h
    obtain ⟨rfl, -⟩ := List.cons.inj hy
    rfl

theorem instrOf_congr {m : Mnemonic} {a b a' b' : Byte}
    (h : [a, b].take m.operandCount = [a', b'].take m.operandCount) :
    instrOf a b m = instrOf a' b' m := by
  simpa using instrOf_eq_of_operandBytes (i := instrOf a' b' m) (a := a) (b := b) (by simp [h])

/-- The two bytes after the opcode begin with the operand bytes, whatever follows the instruction. -/
theorem Instr.operandBytes_eq_take {i : Instr} {a b : Byte} {following rest : List Byte}
    (h : i.operandBytes ++ following = a :: b :: rest) :
    i.operandBytes = [a, b].take i.mnemonic.operandCount :=
  calc i.operandBytes
    _ = (i.operandBytes ++ following).take i.mnemonic.operandCount :=
      (List.take_left' i.operandBytes_length).symm
    _ = ([a, b] ++ rest).take i.mnemonic.operandCount := congrArg _ h
    _ = [a, b].take i.mnemonic.operandCount :=
      List.take_append_of_le_length i.mnemonic.operandCount_le_two

/-! ### What the decoder's answers say -/

/-- An accepted byte is that of an enabled mnemonic, which the answer carries. -/
theorem decode_eq_ok {p : Params} {op a b : Byte} {i : Instr} (h : decode p op a b = .ok i) :
    p.enabled i.mnemonic = true ∧ p.opcode i.mnemonic = op ∧ i = instrOf a b i.mnemonic := by
  rcases decode_cases p op a b with ⟨m, hd, e⟩ | ⟨-, e⟩
  · rw [e] at h; cases h
    simpa using dispatch_some hd
  · rw [e] at h; cases h

theorem decode_eq_error_iff (p : Params) (op a b : Byte) :
    decode p op a b = .error (.unknownOpcode op) ↔ dispatch p op = none := by
  refine ⟨fun h => ?_, decode_error⟩
  rcases decode_cases p op a b with ⟨m, -, e⟩ | ⟨hd, -⟩
  · rw [e] at h; cases h
  · exact hd

/-- Decoding reads no byte after the operand count of the opcode (R60). -/
theorem decode_congr {p : Params} (hp : p.Valid) {op a b a' b' : Byte}
    (h : [a, b].take (nops op) = [a', b'].take (nops op)) :
    decode p op a b = decode p op a' b' := by
  cases hd : dispatch p op with
  | none => rw [decode_error hd, decode_error hd]
  | some m =>
    obtain ⟨he, rfl⟩ := dispatch_some hd
    rw [hp.nops he] at h
    rw [decode_ok hd, decode_ok hd, instrOf_congr h]

/-! ### The obligations about decoding -/

/-- Settles O2: the opcode byte dispatches to the mnemonic, and the operand bytes determine the
instruction. -/
theorem decodeEncodeRoundTrip : Obligations.DecodeEncodeRoundTrip := by
  intro p i op a b following rest hp he h
  obtain ⟨rfl, hbytes⟩ := List.cons.inj h
  rw [decode_ok (dispatch_opcode hp he),
    instrOf_eq_of_operandBytes (Instr.operandBytes_eq_take hbytes)]

/-- Settles O3: the unused bytes are what the operand count drops. -/
theorem encodeDecodeRoundTrip : Obligations.EncodeDecodeRoundTrip := by
  intro p op a b i hp h
  obtain ⟨he, rfl, hi⟩ := decode_eq_ok h
  have hbytes : i.operandBytes = [a, b].take i.mnemonic.operandCount := by
    rw [hi, instrOf_operandBytes, instrOf_mnemonic]
  refine ⟨he, Laws.EncodeLength.of_operandBytes i p hp he, [a, b].drop i.mnemonic.operandCount, ?_⟩
  rw [encode, List.cons_append, hbytes, List.take_append_drop]

/-- Settles O4. -/
theorem unknownOpcodeIffNoTableEntry : Obligations.UnknownOpcodeIffNoTableEntry :=
  fun p op a b => (decode_eq_error_iff p op a b).trans (dispatch_none_iff p op)

/-- Settles O5. -/
theorem unusedOperandBytesIgnored : Obligations.UnusedOperandBytesIgnored := by
  refine fun p op a b a' b' hp => ⟨fun h => decode_congr hp ?_, fun h => decode_congr hp ?_⟩
  · rcases Nat.le_one_iff_eq_zero_or_eq_one.mp h with h | h <;> rw [h] <;> rfl
  · rw [h]; rfl

/-- Settles O1: each byte looked up in the dispatch table. -/
theorem defaultWordsDecode : Obligations.DefaultWordsDecode :=
  ⟨decode_ok (m := .ldi) (by decide), decode_ok (m := .prn) (by decide),
    decode_ok (m := .hlt) (by decide), decode_ok (m := .mul) (by decide),
    decode_ok (m := .cmp) (by decide), decode_ok (m := .push) (by decide),
    decode_ok (m := .call) (by decide), decode_ok (m := .jgt) (by decide),
    decode_ok (m := .sub) (by decide), decode_error (by decide), decode_error (by decide),
    decode_error (by decide), decode_error (by decide)⟩

end Sys2Proof

namespace Sys2Proof.Machine

open Sys2Proof

/-! ### Register operands -/

theorem reg_eq_none_of_lt {o : Byte} (h : 7 < o.toNat) : reg o = none := by
  rw [reg_eq_none_iff, isRegIndex, decide_eq_false_iff_not]
  omega

/-- Settles O6. -/
theorem operandSelectsRegister : Obligations.OperandSelectsRegister :=
  ⟨rfl, rfl, rfl, rfl, rfl, rfl, rfl, rfl, fun _ => reg_eq_none_of_lt⟩

/-- The operands of a well-formed instruction name registers. -/
theorem exists_reg_of_wellFormed {i : Instr} (h : i.wellFormed = true) :
    ∀ o ∈ i.registerOperands, ∃ r, reg o = some r :=
  fun o ho => (exists_reg_iff o).mpr (List.all_eq_true.mp h o ho)

/-- An ill-formed instruction has an operand that names no register. -/
theorem exists_reg_eq_none_of_illFormed {i : Instr} (h : i.wellFormed = false) :
    ∃ o ∈ i.registerOperands, reg o = none := by
  obtain ⟨o, ho, hn⟩ := List.all_eq_false.mp h
  exact ⟨o, ho, (reg_eq_none_iff o).mpr (Bool.eq_false_of_not_eq_true hn)⟩

/-! ### Where the shared operations refuse and where they answer -/

/-- The ALU answers a next state unless it divides by zero. -/
theorem alu_ok_of_ne_zero {op : AluOp} {q : Reg} {s : State}
    (h : op = .div ∨ op = .mod → s.reg q ≠ 0#8) (r : Reg) : ∃ t, alu op r q s = .ok t := by
  cases op with
  | div => exact ⟨_, if_neg (h (.inl rfl))⟩
  | mod => exact ⟨_, if_neg (h (.inr rfl))⟩
  | mul | add | cmp | sub => exact ⟨_, rfl⟩

theorem alu_divideByZero {op : AluOp} (ho : op = .div ∨ op = .mod) {q : Reg} {s : State}
    (hz : s.reg q = 0#8) (r : Reg) : alu op r q s = .error .divideByZero := by
  rcases ho with rfl | rfl <;> exact if_pos hz

theorem aluCycle_invalidIndex {a b : Byte} (h : ∃ o ∈ [a, b], reg o = none) (op : AluOp)
    (m : Mnemonic) (s : State) : aluCycle op m a b s = .refused .invalidRegisterIndex := by
  unfold aluCycle
  cases ha : reg a with
  | none => exact withReg_none ha _
  | some r =>
    have hb : reg b = none := by simpa [ha] using h
    rw [withReg_some ha, withReg_none hb]

theorem aluCycle_refused {op : AluOp} {a b : Byte} {r q : Reg} {s : State} {e : Refusal}
    (ha : reg a = some r) (hb : reg b = some q) (he : alu op r q s = .error e) (m : Mnemonic) :
    aluCycle op m a b s = .refused e := by
  simp [aluCycle, withReg_some ha, withReg_some hb, he]

theorem aluCycle_answers {op : AluOp} {a b : Byte} {s : State}
    (hreg : ∀ o ∈ [a, b], ∃ r, reg o = some r)
    (hz : op = .div ∨ op = .mod → ¬ ∃ q, reg b = some q ∧ s.reg q = 0#8) (m : Mnemonic) :
    ∃ t, aluCycle op m a b s = .next t := by
  obtain ⟨r, hr⟩ := hreg a (by simp)
  obtain ⟨q, hq⟩ := hreg b (by simp)
  obtain ⟨u, hu⟩ := alu_ok_of_ne_zero (fun ho h => hz ho ⟨q, hq, h⟩) r
  exact ⟨_, aluCycle_ok hr hq hu⟩

theorem withReg_answers {o : Byte} {k : Reg → Result} (ho : ∃ r, reg o = some r)
    (hk : ∀ r, ∃ t, k r = .next t) : ∃ t, withReg o k = .next t := by
  obtain ⟨r, hr⟩ := ho
  rw [withReg_some hr]
  exact hk r

/-- A memory access answers a next state either way: a fatal error is one (60_exceptions.md R154). -/
theorem orFatal_answers {α : Type} (s : State) (access : Except FatalError α) {k : α → Result}
    (hk : ∀ v, ∃ t, k v = .next t) : ∃ t, orFatal s access k = .next t := by
  cases access with
  | ok v => exact hk v
  | error e => exact ⟨_, orFatal_error s e k⟩

/-! ### Where an instruction is refused -/

theorem exec_illFormed {i : Instr} (h : i.wellFormed = false) (s : State) :
    exec i s = .refused .invalidRegisterIndex := by
  have hbad := exists_reg_eq_none_of_illFormed h
  cases i with
  | hlt | ret => cases h
  | ldi a _ | prn a | push a | pop a | call a | jmp a | jeq a | jne a | jgt a =>
    obtain ⟨o, ho, hn⟩ := hbad
    cases List.mem_singleton.mp ho
    exact withReg_none hn _
  | mul => exact aluCycle_invalidIndex hbad .mul .mul s
  | add => exact aluCycle_invalidIndex hbad .add .add s
  | cmp => exact aluCycle_invalidIndex hbad .cmp .cmp s
  | sub => exact aluCycle_invalidIndex hbad .sub .sub s
  | div => exact aluCycle_invalidIndex hbad .div .div s
  | mod => exact aluCycle_invalidIndex hbad .mod .mod s

theorem exec_divideByZero {i : Instr} {s : State} (h : i.wellFormed = true)
    (hz : DividesByZero i s) : exec i s = .refused .divideByZero := by
  cases i with
  | div a b | mod a b =>
    obtain ⟨r, hr⟩ := exists_reg_of_wellFormed h a List.mem_cons_self
    obtain ⟨q, hq, hzero⟩ := hz
    exact aluCycle_refused hr hq (alu_divideByZero (by decide) hzero r) _
  | _ => exact hz.elim

theorem exec_answers {i : Instr} {s : State} (h : i.wellFormed = true)
    (hz : ¬ DividesByZero i s) : ∃ t, exec i s = .next t := by
  have hreg := exists_reg_of_wellFormed h
  cases i with
  | hlt => exact ⟨_, rfl⟩
  | ret => exact orFatal_answers s _ fun _ => ⟨_, rfl⟩
  | ldi a _ | prn a | jmp a | jeq a | jne a | jgt a =>
    exact withReg_answers (hreg _ List.mem_cons_self) fun _ => ⟨_, rfl⟩
  | push a | pop a | call a =>
    exact withReg_answers (hreg _ List.mem_cons_self) fun _ => orFatal_answers s _ fun _ => ⟨_, rfl⟩
  | mul => exact aluCycle_answers (op := .mul) hreg (by simp) .mul
  | add => exact aluCycle_answers (op := .add) hreg (by simp) .add
  | cmp => exact aluCycle_answers (op := .cmp) hreg (by simp) .cmp
  | sub => exact aluCycle_answers (op := .sub) hreg (by simp) .sub
  | div => exact aluCycle_answers (op := .div) hreg (fun _ => hz) .div
  | mod => exact aluCycle_answers (op := .mod) hreg (fun _ => hz) .mod

/-- Settles O15. -/
theorem refusedExactlyWhen : Obligations.RefusedExactlyWhen :=
  fun _ s => ⟨fun h => exec_illFormed h s, exec_divideByZero, exec_answers⟩

end Sys2Proof.Machine

/-! # Proofs: the cycle (40_cycle.md) -/

namespace Sys2Proof.Machine

open Sys2Proof

/-! ### The ALU instructions -/

/-- An instruction that the ALU performs is an ALU cycle of its mnemonic.  Unless it compares, the
register it writes is the one that operand A names. -/
theorem exec_eq_aluCycle {i : Instr} (hi : i.mnemonic.usesAlu = true) :
    ∃ op a b, (op ≠ .cmp → writtenRegs i = (reg a).toList) ∧
      ∀ s, exec i s = aluCycle op i.mnemonic a b s := by
  cases i with
  | mul a b => exact ⟨.mul, a, b, fun _ => rfl, fun _ => rfl⟩
  | add a b => exact ⟨.add, a, b, fun _ => rfl, fun _ => rfl⟩
  | cmp a b => exact ⟨.cmp, a, b, fun h => absurd rfl h, fun _ => rfl⟩
  | sub a b => exact ⟨.sub, a, b, fun _ => rfl, fun _ => rfl⟩
  | div a b => exact ⟨.div, a, b, fun _ => rfl, fun _ => rfl⟩
  | mod a b => exact ⟨.mod, a, b, fun _ => rfl, fun _ => rfl⟩
  | _ => cases hi

/-- An ALU cycle writes the register that operand A names, or FL, not both (40_cycle.md R81). -/
theorem aluCycle_writes {op : AluOp} {m : Mnemonic} {a b : Byte} {s t : State}
    (h : aluCycle op m a b s = .next t) :
    (op ≠ .cmp ∧ t.fl = s.fl ∧ RegsKept (reg a).toList s t) ∨ (op = .cmp ∧ RegsKept [] s t) := by
  obtain ⟨r, q, u, hr, -, hu, rfl⟩ := aluCycle_next h
  rcases alu_writes hu with ⟨hop, hregs, -⟩ | ⟨hop, hfl, hkept⟩
  · exact .inr ⟨hop, fun p _ => congrArg (·.get p) hregs⟩
  · exact .inl ⟨hop, hfl, fun p hp => hkept p (reg_ne_of_not_mem hp hr).symm⟩

/-- An ALU cycle does the same with any other memory, and keeps that memory. -/
theorem aluCycle_otherMem (op : AluOp) (m : Mnemonic) (a b : Byte) (s : State) (mem : Memory) :
    ResultRel (fun t u => u = { t with mem := mem }) (aluCycle op m a b s)
      (aluCycle op m a b { s with mem := mem }) :=
  .aluCycle (fun _ _ => rfl) (fun _ _ => rfl) (fun _ _ => rfl) (fun _ => rfl)

/-- Settles O25. -/
theorem aluNeverTouchesMemoryOrPc : Obligations.AluNeverTouchesMemoryOrPc := by
  intro i s hi
  obtain ⟨op, a, b, hwritten, hexec⟩ := exec_eq_aluCycle hi
  simp only [hexec]
  refine ⟨fun t h => ?_, fun mem t h => ?_, fun mem e h =>
    (aluCycle_otherMem op _ a b s mem).of_refused h⟩
  · have hwrites : (t.fl = s.fl ∧ RegsKept (writtenRegs i) s t) ∨ RegsKept [] s t :=
      (aluCycle_writes h).imp (fun ⟨hop, hfl, hkept⟩ => ⟨hfl, hwritten hop ▸ hkept⟩) And.right
    obtain ⟨r, q, u, -, -, hu, rfl⟩ := aluCycle_next h
    obtain ⟨hpc, hmem, hout, hstatus, herr, hparams⟩ := alu_frame hu
    refine ⟨hmem, hout, ⟨hstatus, herr, hparams⟩, ?_, hwrites⟩
    rw [State.advance_pc, hpc, hparams]
  · obtain ⟨u, hu, rfl⟩ := (aluCycle_otherMem op _ a b s mem).of_next h
    exact hu

/-! ### What a step runs -/

/-- Settles O11. -/
theorem stepRunsDecodedInstruction : Obligations.StepRunsDecodedInstruction :=
  fun _ _ => step_of_fetches

/-- A step of a running machine that takes no fatal error is the effect of the fetched instruction,
whose table entry is the byte at PC. -/
theorem completes_of_step_ne_fault {s t : State} (hr : s.status = .run) (h : step s = .next t)
    (ht : t.status ≠ .fault) :
    ∃ i, Fetches s i ∧ s.params.enabled i.mnemonic = true ∧
      s.params.opcode i.mnemonic = Memory.read s.mem s.pc ∧ exec i s = .next t ∧
      Completes i s t := by
  rcases step_next h with
    ⟨hn, -⟩ | ⟨-, k, -, -, rfl⟩ | ⟨-, -, rfl⟩ | ⟨-, a, rfl, -, -⟩ | ⟨-, -, hi⟩
  · exact absurd hr hn
  · exact absurd rfl ht
  · exact absurd rfl ht
  · exact absurd rfl ht
  · exact hi

/-- Settles O41: the advance counts the operands of the mnemonic, whose byte is the one fetched. -/
theorem advanceByOperandCount : Obligations.AdvanceByOperandCount := by
  refine ⟨fun s t i hp hr hi hct h ht => ?_, fun s t a r hr hi ha hself h => ?_⟩
  · obtain ⟨j, hj, he, hop, -, hc⟩ := completes_of_step_ne_fault hr h ht
    cases hi.unique hj
    have hpc : t.pc = s.pc + 1 + nops (s.params.opcode i.mnemonic) :=
      hc.pc.resolve_right fun hjump => by simp [hct] at hjump
    refine ⟨hop ▸ hpc, ?_⟩
    rw [hpc, hp.nops he]
    cases hm : i.mnemonic with
    | call | ret | jmp | jeq | jne | jgt => rw [hm] at hct; cases hct
    | _ => rfl
  · rw [step_of_fetches hr hi] at h
    obtain ⟨q, hq, rfl⟩ := execJmp_next h
    cases ha.symm.trans hq
    exact hself

/-- Settles O43: only HLT completes with another run latch. -/
theorem onlyHltHalts : Obligations.OnlyHltHalts := by
  intro s t hp hr h ht
  obtain ⟨i, hi, he, -, hexec, hc⟩ := completes_of_step_ne_fault hr h (by simp [ht])
  rcases hc.status with hkept | ⟨rfl, -⟩
  · simp [hkept, hr] at ht
  · have hcount : nops (s.params.opcode .hlt) = 0 := hp.nops he
    refine ⟨hi, (execHlt_next hexec).trans ?_⟩
    rw [State.advance, State.setStatus_params, hcount]
    rfl

/-! ### The fetch -/

/-- The fetch ends at the first of its three addresses that is outside memory. -/
theorem fetch_outOfBounds {s : State} {k : Nat} (hk : k ≤ 2) (hout : s.params.memSize ≤ s.pc + k)
    (hin : ∀ j, j < k → s.pc + j < s.params.memSize) :
    fetch s = .error (.outOfBoundsAccess (s.pc + k)) := by
  rcases fetch_cases s with ⟨hf, -⟩ | ⟨k', -, hout', hin', e⟩
  · unfold State.Fetchable at hf
    omega
  · have hge : ¬ k < k' := fun hlt => absurd (hin' k hlt) (by omega)
    have hle : ¬ k' < k := fun hlt => absurd (hin k' hlt) (by omega)
    rw [e, show k' = k by omega]

theorem step_of_fetch_error {s : State} {e : FatalError} (hr : s.status = .run)
    (he : fetch s = .error e) : ∃ t, step s = .next t ∧ FaultedFrom e s t :=
  ⟨takeFatal e s, by rw [step_run hr, he, orFatal_error], .takeFatal e s⟩

/-- Settles O12. -/
theorem fetchReadsThreeBytesInBounds : Obligations.FetchReadsThreeBytesInBounds := by
  intro s hr
  refine ⟨fun h => ?_, fun h => ?_, fun h => ?_, fun h => ?_⟩
  · exact step_of_fetch_error hr (fetch_outOfBounds (k := 0) (by omega) h (by omega))
  · exact step_of_fetch_error hr (fetch_outOfBounds (by omega) h.ge (by omega))
  · exact step_of_fetch_error hr (fetch_outOfBounds (by omega) h.ge (by omega))
  · exact ⟨_, fetch_ok h, memRead_ok (by omega), memRead_ok (by omega), memRead_ok h⟩

/-! ### The stop request -/

theorem State.stopRequest_of_run {s : State} (hr : s.status = .run) :
    s.stopRequest = s.setStatus .halt := by
  unfold State.stopRequest
  rw [hr]

theorem State.stopRequest_of_not_run {s : State} (hr : s.status ≠ .run) : s.stopRequest = s := by
  unfold State.stopRequest
  cases hs : s.status with
  | run => exact absurd hs hr
  | halt | fault => rfl

/-- Settles O46. -/
theorem stopRequestOnlyHalts : Obligations.StopRequestOnlyHalts :=
  fun _ => ⟨State.stopRequest_of_run, State.stopRequest_of_not_run⟩

end Sys2Proof.Machine

/-! # Proofs: LDI, PRN and HLT (41_load_print_halt.md) -/

namespace Sys2Proof.Machine

open Sys2Proof

/-! ### One equation per meaning -/

theorem execLdi_ok {a : Byte} {r : Reg} (ha : reg a = some r) (imm : Byte) (s : State) :
    execLdi a imm s = .next ((s.setReg r imm).advance .ldi) := withReg_some ha _

theorem execPrn_ok {a : Byte} {r : Reg} (ha : reg a = some r) (s : State) :
    execPrn a s = .next ((s.emit (s.reg r)).advance .prn) := withReg_some ha _

theorem execHlt_eq (s : State) : execHlt s = .next ((s.setStatus .halt).advance .hlt) := rfl

/-- On allowed parameters the advance skips the opcode byte and the operand bytes of the mnemonic
(40_cycle.md R78). -/
theorem State.advance_pc_of_valid {s : State} {m : Mnemonic} (hp : s.params.Valid)
    (he : s.params.enabled m = true) : (s.advance m).pc = s.pc + (1 + m.operandCount) := by
  rw [State.advance_pc, hp.nops he, Nat.add_assoc]

/-! ### What each changes and leaves unchanged -/

/-- Settles O16: the one register write of LDI, then the advance over two operands. -/
theorem ldiLoadsImmediate : Obligations.LdiLoadsImmediate := by
  intro s a imm r hp ha
  have hpc : ((s.setReg r imm).advance .ldi).pc = s.pc + 3 :=
    State.advance_pc_of_valid hp (s.params.enabled_of_not_option rfl)
  have hkept : RegsKept [r] s ((s.setReg r imm).advance .ldi) := fun q hq =>
    s.setReg_reg_ne (List.ne_of_not_mem_cons hq) imm
  exact ⟨_, execLdi_ok ha imm s, s.setReg_reg_same r imm, hpc, hkept, fun _ _ => rfl, rfl, rfl,
    rfl, rfl, rfl⟩

/-- Settles O17: the one append of PRN, then the advance over one operand. -/
theorem prnAppendsRegister : Obligations.PrnAppendsRegister := by
  intro s a r hp ha
  have hpc : ((s.emit (s.reg r)).advance .prn).pc = s.pc + 2 :=
    State.advance_pc_of_valid hp (s.params.enabled_of_not_option rfl)
  exact ⟨_, execPrn_ok ha s, s.emit_out (s.reg r), hpc, fun _ _ => rfl, fun _ _ => rfl, rfl,
    rfl, rfl, rfl⟩

/-- Settles O18: the run latch is written, then PC advances over no operand (40_cycle.md R80). -/
theorem hltStopsClock : Obligations.HltStopsClock := by
  intro s hp
  have hpc : ((s.setStatus .halt).advance .hlt).pc = s.pc + 1 :=
    State.advance_pc_of_valid hp (s.params.enabled_of_not_option rfl)
  exact ⟨_, execHlt_eq s, s.setStatus_status .halt, hpc, fun _ _ => rfl, fun _ _ => rfl, rfl, rfl,
    rfl, rfl⟩

end Sys2Proof.Machine

/-! # Proofs: the ALU instructions (42_alu.md) -/

namespace Sys2Proof

/-- With the option every mnemonic has a table entry (42_alu.md R107). -/
theorem Params.enabled_of_extAlu {p : Params} (h : p.extAlu = true) (m : Mnemonic) :
    p.enabled m = true := by
  rw [Params.enabled, h, Bool.true_or]

end Sys2Proof

namespace Sys2Proof.Machine

open Sys2Proof

/-! ### The results as numbers -/

theorem mulResult_toNat (x y : Byte) : (mulResult x y).toNat = x.toNat * y.toNat % 256 := by
  rw [mulResult_eq, BitVec.toNat_mul]

theorem addResult_toNat (x y : Byte) : (addResult x y).toNat = (x.toNat + y.toNat) % 256 := by
  rw [addResult_eq, BitVec.toNat_add]

theorem subResult_toNat (x y : Byte) : (subResult x y).toNat = (x.toNat + 256 - y.toNat) % 256 := by
  have := y.isLt
  rw [subResult_eq, BitVec.toNat_sub]
  omega

/-! ### The flags of a comparison (42_alu.md R104) -/

theorem compareFlags_of_gt {x y : Byte} (h : y.toNat < x.toNat) : compareFlags x y = .greater :=
  if_pos h

theorem compareFlags_of_lt {x y : Byte} (h : x.toNat < y.toNat) : compareFlags x y = .less :=
  (if_neg h.not_gt).trans (if_pos h)

theorem compareFlags_self (x : Byte) : compareFlags x x = .equal :=
  (if_neg (lt_irrefl _)).trans (if_neg (lt_irrefl _))

/-- Each flag value stands for one of the three cases of the unsigned order. -/
theorem compareFlags_iff (x y : Byte) :
    (compareFlags x y = .greater ↔ y.toNat < x.toNat) ∧
    (compareFlags x y = .less ↔ x.toNat < y.toNat) ∧
    (compareFlags x y = .equal ↔ x = y) := by
  rcases lt_trichotomy x.toNat y.toNat with h | h | h
  · have hne : x ≠ y := by rintro rfl; exact lt_irrefl _ h
    simp [compareFlags_of_lt h, h, h.le, hne]
  · cases BitVec.eq_of_toNat_eq h
    simp [compareFlags_self]
  · have hne : x ≠ y := by rintro rfl; exact lt_irrefl _ h
    simp [compareFlags_of_gt h, h, h.le, hne]

/-! ### What an instruction of two operands changes and leaves unchanged -/

/-- A cycle of two operands that writes one register and advances does nothing else
(42_alu.md R101). -/
theorem exec_writesOnlyReg {i : Instr} {s : State} {r : Reg} {v : Byte} {n : Nat}
    (hp : s.params.Valid) (hen : s.params.enabled i.mnemonic = true)
    (hops : i.mnemonic.operandCount = 2)
    (hexec : exec i s = .next ((s.setReg r v).advance i.mnemonic)) (hv : v.toNat = n) :
    ∃ t, exec i s = .next t ∧ (t.reg r).toNat = n ∧ t.pc = s.pc + 3 ∧
      RegsKept [r] s t ∧ MemKept [] s t ∧ t.fl = s.fl ∧ t.out = s.out ∧ ControlKept s t := by
  have hreg : (((s.setReg r v).advance i.mnemonic).reg r).toNat = n := by
    rw [State.advance_reg, State.setReg_reg_same, hv]
  have hpc : ((s.setReg r v).advance i.mnemonic).pc = s.pc + 3 := by
    rw [State.advance_pc_of_valid (s := s.setReg r v) hp hen, hops, State.setReg_pc]
  have hkept : RegsKept [r] s ((s.setReg r v).advance i.mnemonic) := fun q hq =>
    s.setReg_reg_ne (List.ne_of_not_mem_cons hq) v
  exact ⟨_, hexec, hreg, hpc, hkept, fun _ _ => rfl, rfl, rfl, rfl, rfl, rfl⟩

/-! ### The instructions of every machine -/

/-- Settles O19: the one register write of MUL is the product of the old values modulo 256. -/
theorem mulWrapsProduct : Obligations.MulWrapsProduct := fun s _ _ _ _ hp ha hb =>
  exec_writesOnlyReg hp (s.params.enabled_of_not_option rfl) rfl (execMul_ok ha hb s)
    (mulResult_toNat _ _)

/-- Settles O20: the one register write of ADD is the sum of the old values modulo 256. -/
theorem addWrapsSum : Obligations.AddWrapsSum := fun s _ _ _ _ hp ha hb =>
  exec_writesOnlyReg hp (s.params.enabled_of_not_option rfl) rfl (execAdd_ok ha hb s)
    (addResult_toNat _ _)

/-- Settles O21: the one write of CMP is FL, by the three cases of the order. -/
theorem cmpSetsFlagsByUnsignedOrder : Obligations.CmpSetsFlagsByUnsignedOrder := by
  intro s a b r q hp ha hb
  obtain ⟨hgreater, hless, hequal⟩ := compareFlags_iff (s.reg r) (s.reg q)
  have hpc : ((s.setFl (compareFlags (s.reg r) (s.reg q))).advance .cmp).pc = s.pc + 3 :=
    State.advance_pc_of_valid hp (s.params.enabled_of_not_option rfl)
  exact ⟨_, execCmp_ok ha hb s, hgreater, hless, hequal, compareFlags_ne_none _ _, hpc,
    fun _ _ => rfl, fun _ _ => rfl, rfl, rfl, rfl, rfl⟩

/-! ### The instructions of the option `EXT_ALU` -/

/-- Settles O22: the one register write of SUB is the difference of the old values modulo 256. -/
theorem subWrapsDifference : Obligations.SubWrapsDifference := fun s _ _ _ _ hp hext ha hb =>
  exec_writesOnlyReg hp (Params.enabled_of_extAlu hext _) rfl (execSub_ok ha hb s)
    (subResult_toNat _ _)

/-- Settles O23: the quotient fits the byte, and a zero divisor refuses the cycle. -/
theorem divWritesQuotient : Obligations.DivWritesQuotient := by
  intro s a b r q hp hext ha hb
  refine ⟨fun hne => ?_, fun hz => ?_⟩
  · exact exec_writesOnlyReg hp (Params.enabled_of_extAlu hext _) rfl (execDiv_ok ha hb hne)
      (divResult_toNat _ _)
  · exact aluCycle_refused ha hb (alu_divideByZero (.inl rfl) hz r) .div

/-- Settles O24: the remainder fits the byte, and a zero divisor refuses the cycle. -/
theorem modWritesRemainder : Obligations.ModWritesRemainder := by
  intro s a b r q hp hext ha hb
  refine ⟨fun hne => ?_, fun hz => ?_⟩
  · exact exec_writesOnlyReg hp (Params.enabled_of_extAlu hext _) rfl (execMod_ok ha hb hne)
      (modResult_toNat _ _)
  · exact aluCycle_refused ha hb (alu_divideByZero (.inr rfl) hz r) .mod

end Sys2Proof.Machine

/-! # Proofs: the stack (43_stack.md) -/

namespace Sys2Proof.Machine

open Sys2Proof

/-! ### Reading memory -/

theorem memRead_eq_ok {s : State} {a : Nat} {v : Byte} (h : memRead s a = .ok v) :
    a < s.params.memSize ∧ Memory.read s.mem a = v := by
  by_cases ha : a < s.params.memSize
  · rw [memRead_ok ha] at h
    exact ⟨ha, Except.ok.inj h⟩
  · rw [memRead_error (Nat.le_of_not_lt ha)] at h
    cases h

theorem MemKept.memRead_eq {except : List Nat} {s t : State} {a : Nat} (h : MemKept except s t)
    (hp : t.params = s.params) (ha : a ∉ except) : memRead t a = memRead s a := by
  simp only [memRead, hp, h a ha]

/-! ### What PUSH and POP change and leave unchanged -/

/-- Settles O26: the stack pointer is lowered before the register is read, so PUSH R7 stores the
lowered one (R124). -/
theorem pushStoresBelowStackPointer : Obligations.PushStoresBelowStackPointer := by
  intro s a r hp hwf ha hb
  rw [← s.decSp_sp_toNat] at hb ⊢
  rw [← s.decSp_reg]
  have hpc : (State.advance { s.decSp with
      mem := Memory.write s.mem s.decSp.sp.toNat (s.decSp.reg r) } .push).pc = s.pc + 2 :=
    State.advance_pc_of_valid hp (s.params.enabled_of_not_option rfl)
  exact ⟨_, execPush_ok ha hb, s.decSp_sp, memRead_write_same hwf hb _, hpc,
    fun q hq => s.decSp_reg_ne (List.ne_of_not_mem_cons hq), .of_write rfl, rfl, rfl, rfl, rfl, rfl⟩

/-- A POP that loads a byte into `r` and raises the stack pointer after that write leaves every
other register. -/
theorem State.setReg_incSp_regsKept (s : State) (r : Reg) (v : Byte) :
    RegsKept [r, .r7] s (s.setReg r v).incSp := by
  intro q hq
  obtain ⟨hr, h7⟩ : q ≠ r ∧ q ≠ .r7 := by simpa using hq
  rw [State.incSp_reg_ne _ h7, s.setReg_reg_ne hr]

/-- Settles O27: the stack pointer is read again after the write of the register, so POP R7 leaves
the loaded byte plus 1 (R124). -/
theorem popLoadsFromStackPointer : Obligations.PopLoadsFromStackPointer := by
  intro s a v r hp ha hv
  obtain ⟨hb, rfl⟩ := memRead_eq_ok hv
  have hpc : ((s.setReg r (Memory.read s.mem s.sp.toNat)).incSp.advance .pop).pc = s.pc + 2 :=
    State.advance_pc_of_valid hp (s.params.enabled_of_not_option rfl)
  refine ⟨_, execPop_ok ha hb, fun hr => ⟨?_, ?_⟩, ?_, hpc, s.setReg_incSp_regsKept r _,
    fun _ _ => rfl, rfl, rfl, rfl, rfl, rfl⟩
  · rw [State.advance_reg, State.incSp_reg_ne _ hr, State.setReg_reg_same, State.sp_eq]
  · rw [State.advance_reg, State.incSp_sp, s.setReg_reg_ne hr.symm]
    rfl
  · rintro rfl
    rw [State.advance_reg, State.incSp_sp, State.setReg_reg_same, State.sp_eq]
    rfl

/-! ### The round trip -/

/-- Settles O28: POP reads at the lowered stack pointer, where PUSH stored the register, and raises
it again. -/
theorem pushPopRoundTrip : Obligations.PushPopRoundTrip := by
  intro s a r hp hwf ha hr hb
  obtain ⟨t, ht, htsp, htread, htpc, htregs, -, -, -, -, -, htparams⟩ :=
    pushStoresBelowStackPointer s a r hp hwf ha hb
  rw [if_neg hr] at htread
  obtain ⟨u, hu, hloads, -, hupc, huregs, humem, -, -, -, -, huparams⟩ :=
    popLoadsFromStackPointer t a (s.reg r) r (htparams ▸ hp) ha (htsp ▸ htread)
  obtain ⟨hur, husp⟩ := hloads hr
  have hregs : RegsKept [] s u := by
    intro q _
    by_cases hqr : q = r
    · rw [hqr, hur]
    by_cases hq7 : q = .r7
    · rw [hq7, husp, htsp, sub_add_cancel]
    · rw [huregs q (by simp [hqr, hq7]), htregs q (by simp [hq7])]
  exact ⟨t, u, ht, hu, hregs, (humem.memRead_eq huparams List.not_mem_nil).trans htread,
    by rw [hupc, htpc]⟩

end Sys2Proof.Machine

/-! # Proofs: control transfer (44_control_transfer.md) -/

namespace Sys2Proof.Machine

open Sys2Proof

/-! ### CALL and RET -/

/-- Settles O29: the stack pointer is lowered before the register is read, so CALL R7 jumps to the
lowered one (R143). -/
theorem callSavesReturnAddress : Obligations.CallSavesReturnAddress := by
  intro s a r hp hwf hf ha hb
  rw [← s.decSp_sp_toNat] at hb ⊢
  rw [← s.decSp_reg]
  exact ⟨_, _, execCall_ok ha hb, s.decSp_sp, memRead_write_same hwf hb _, hf.returnAddress_toNat hp,
    rfl, fun q hq => s.decSp_reg_ne (List.ne_of_not_mem_cons hq), .of_write rfl, rfl, rfl, rfl, rfl,
    rfl⟩

/-- Settles O30. -/
theorem retJumpsToSavedByte : Obligations.RetJumpsToSavedByte := by
  intro s v hv
  obtain ⟨hb, rfl⟩ := memRead_eq_ok hv
  exact ⟨_, execRet_ok hb, rfl, (s.setPc _).incSp_sp,
    fun q hq => (s.setPc _).incSp_reg_ne (List.ne_of_not_mem_cons hq), fun _ _ => rfl, rfl, rfl, rfl,
    rfl, rfl⟩

/-- A CALL that leaves the clock running has a register operand and a stack slot in memory. -/
theorem execCall_inBounds {a : Byte} {s t : State} (h : execCall a s = .next t)
    (ht : t.status = .run) :
    ∃ r, reg a = some r ∧ (s.reg .r7 - 1).toNat < s.params.memSize := by
  obtain ⟨r, hr, ⟨hb, -⟩ | ⟨-, rfl⟩⟩ := execCall_next h
  · exact ⟨r, hr, s.decSp_sp_toNat ▸ hb⟩
  · cases ht

/-- Settles O31: RET reads at the stack pointer that CALL lowered, where CALL stored its return
address, and raises it again. -/
theorem callRetRoundTrip : Obligations.CallRetRoundTrip := by
  intro s t u a hp hwf hf _ h ht hsp hread
  obtain ⟨r, ha, hb⟩ := execCall_inBounds h ht
  obtain ⟨t', v, ht', htsp, htread, hv, -⟩ := callSavesReturnAddress s a r hp hwf hf ha hb
  cases h.symm.trans ht'
  rw [← htsp] at htread
  obtain ⟨w, hw, hwpc, hwsp, -⟩ := retJumpsToSavedByte u v (hsp ▸ hread.trans htread)
  exact ⟨w, hw, hwpc.trans hv, by rw [hwsp, hsp, htsp, sub_add_cancel]⟩

/-! ### The jumps -/

theorem State.setPc_onlyPcChanged (s : State) (n : Nat) : OnlyPcChanged s (s.setPc n) :=
  ⟨fun _ _ => rfl, fun _ _ => rfl, rfl, rfl, rfl, rfl, rfl⟩

theorem execJmp_ok {a : Byte} {r : Reg} (ha : reg a = some r) (s : State) :
    execJmp a s = .next (s.setPc (s.reg r).toNat) := withReg_some ha _

/-- Settles O32: the one write of JMP is PC. -/
theorem jmpJumpsToRegister : Obligations.JmpJumpsToRegister := fun s _ r ha =>
  ⟨_, execJmp_ok ha s, rfl, s.setPc_onlyPcChanged (s.reg r).toNat⟩

theorem conditionalJump_taken {cond : Flags → Bool} {a : Byte} {r : Reg} {s : State}
    (ha : reg a = some r) (hc : cond s.fl = true) (m : Mnemonic) :
    conditionalJump cond m a s = .next (s.setPc (s.reg r).toNat) := by
  rw [conditionalJump, withReg_some ha, if_pos hc]

theorem conditionalJump_notTaken {cond : Flags → Bool} {a : Byte} {r : Reg} {s : State}
    (ha : reg a = some r) (hc : ¬ cond s.fl = true) (m : Mnemonic) :
    conditionalJump cond m a s = .next (s.advance m) := by
  rw [conditionalJump, withReg_some ha, if_neg hc]

/-- A conditional jump of one operand writes PC only: the register where its condition holds of FL,
the address after the operand where not (R135, R136). -/
theorem conditionalJump_writesOnlyPc {cond : Flags → Bool} {m : Mnemonic} {a : Byte} {r : Reg}
    {s : State} {n : Nat} (hp : s.params.Valid) (he : s.params.enabled m = true)
    (hops : m.operandCount = 1) (ha : reg a = some r)
    (hn : (if cond s.fl then (s.reg r).toNat else s.pc + 2) = n) :
    ∃ t, conditionalJump cond m a s = .next t ∧ OnlyPcChanged s t ∧ t.pc = n := by
  by_cases hc : cond s.fl = true
  · rw [if_pos hc] at hn
    exact ⟨_, conditionalJump_taken ha hc m, s.setPc_onlyPcChanged _, hn⟩
  · rw [if_neg hc] at hn
    have hpc : (s.advance m).pc = s.pc + 2 := by rw [State.advance_pc_of_valid hp he, hops]
    exact ⟨_, conditionalJump_notTaken ha hc m, s.setPc_onlyPcChanged _, hpc.trans hn⟩

/-- Settles O33: each condition on the four values of FL. -/
theorem conditionalJumpTable : Obligations.ConditionalJumpTable := by
  intro s a r hp ha
  have henabled {m : Mnemonic} (hm : m.isOption = false) := s.params.enabled_of_not_option hm
  refine ⟨conditionalJump_writesOnlyPc hp (henabled rfl) rfl ha ?_,
    conditionalJump_writesOnlyPc hp (henabled rfl) rfl ha ?_,
    conditionalJump_writesOnlyPc hp (henabled rfl) rfl ha ?_⟩
  all_goals cases s.fl <;> rfl

end Sys2Proof.Machine

/-! # Proofs: exceptions (60_exceptions.md) -/

namespace Sys2Proof.Machine

open Sys2Proof

/-! ### Fatal errors of a step -/

/-- Settles O42: of the five things a step can do, the three fatal errors leave the status FAULT. The
fetch reads at most at PC + 2, and a stack address is one byte. -/
theorem fatalErrorChangesOnlyStatusAndErr : Obligations.FatalErrorChangesOnlyStatusAndErr := by
  intro s t hr hpc h hfault
  rcases step_next h with ⟨hn, -⟩ | ⟨-, k, hk, hlow, rfl⟩ | ⟨-, hd, rfl⟩ | ⟨-, a, rfl, hlow, ha⟩ |
    ⟨-, -, i, -, -, -, -, hc⟩
  · exact absurd hr hn
  · exact .inr ⟨s.pc + k, .takeFatal _ s, hlow, by omega⟩
  · exact .inl ⟨.takeFatal _ s, (dispatch_none_iff _ _).mp hd⟩
  · exact .inr ⟨a, .takeFatal _ s, hlow, by omega⟩
  · exact absurd hfault (hc.status_ne_fault hr)

theorem step_of_dispatch_none {s : State} (hr : s.status = .run) (hf : s.Fetchable)
    (hd : dispatch s.params (Memory.read s.mem s.pc) = none) :
    step s = .next (takeFatal (.unknownOpcode s.pc (Memory.read s.mem s.pc)) s) := by
  rw [step_run hr, fetch_ok hf]
  simp only [orFatal_ok, decode_error hd]

/-- Settles O13: a byte that no enabled mnemonic has is one without a table entry. -/
theorem unknownOpcodeStopsUnchanged : Obligations.UnknownOpcodeStopsUnchanged :=
  fun s hr hf hne =>
    ⟨_, step_of_dispatch_none hr hf ((dispatch_none_iff _ _).mpr hne), .takeFatal _ s⟩

/-! ### Fatal errors of a stack access -/

/-- A load from outside memory takes its fatal error from the start of the cycle, whatever would have
followed. -/
theorem orFatal_memRead_outOfBounds {s : State} {a : Nat} (hb : s.params.memSize ≤ a) (start : State)
    (k : Byte → Result) :
    orFatal start (memRead s a) k = .next (takeFatal (.outOfBoundsAccess a) start) := by
  rw [memRead_error hb, orFatal_error]

theorem orFatal_memWrite_outOfBounds {s : State} {a : Nat} (hb : s.params.memSize ≤ a) (v : Byte)
    (start : State) (k : State → Result) :
    orFatal start (memWrite s a v) k = .next (takeFatal (.outOfBoundsAccess a) start) := by
  rw [memWrite_error hb, orFatal_error]

section
variable {a : Byte} {r : Reg} {s : State}

theorem execPush_outOfBounds (ha : reg a = some r) (hb : s.params.memSize ≤ s.decSp.sp.toNat) :
    execPush a s = .next (takeFatal (.outOfBoundsAccess s.decSp.sp.toNat) s) :=
  (withReg_some ha _).trans (orFatal_memWrite_outOfBounds (s := s.decSp) hb _ s _)

theorem execCall_outOfBounds (ha : reg a = some r) (hb : s.params.memSize ≤ s.decSp.sp.toNat) :
    execCall a s = .next (takeFatal (.outOfBoundsAccess s.decSp.sp.toNat) s) :=
  (withReg_some ha _).trans (orFatal_memWrite_outOfBounds (s := s.decSp) hb _ s _)

theorem execPop_outOfBounds (ha : reg a = some r) (hb : s.params.memSize ≤ s.sp.toNat) :
    execPop a s = .next (takeFatal (.outOfBoundsAccess s.sp.toNat) s) :=
  (withReg_some ha _).trans (orFatal_memRead_outOfBounds hb s _)

theorem execRet_outOfBounds (hb : s.params.memSize ≤ s.sp.toNat) :
    execRet s = .next (takeFatal (.outOfBoundsAccess s.sp.toNat) s) :=
  orFatal_memRead_outOfBounds hb s _

end

/-- Settles O34: the fatal error is taken from the state before the stack pointer was lowered. -/
theorem stackFaultUndoesCycle : Obligations.StackFaultUndoesCycle := by
  intro s a r ha
  refine ⟨fun hb => ?_, fun hb => ?_⟩
  · rw [← s.decSp_sp_toNat] at hb ⊢
    exact ⟨⟨_, execPush_outOfBounds ha hb, .takeFatal _ s⟩,
      ⟨_, execCall_outOfBounds ha hb, .takeFatal _ s⟩⟩
  · exact ⟨⟨_, execPop_outOfBounds ha hb, .takeFatal _ s⟩,
      ⟨_, execRet_outOfBounds hb, .takeFatal _ s⟩⟩

end Sys2Proof.Machine

/-! # Proofs: reset, launch and the states a host can reach (70_reset_and_hazards.md) -/

namespace Sys2Proof.Machine

open Sys2Proof

/-! ### The loader's writes -/

theorem read_loadImage_outside (img : List Byte) (m : Memory) {a b : Nat}
    (h : b < a ∨ a + img.length ≤ b) :
    Memory.read (loadImage m a img) b = Memory.read m b := by
  induction img generalizing m a with
  | nil => rfl
  | cons v rest ih =>
    simp only [List.length_cons] at h
    calc Memory.read (loadImage (Memory.write m a v) (a + 1) rest) b
      _ = Memory.read (Memory.write m a v) b := ih _ (by omega)
      _ = Memory.read m b := Memory.read_write_ne (by omega) m v

/-- The loader writes ascending, so the byte at an address is the one it wrote there: no later write
reaches it. -/
theorem read_loadImage_getElem (img : List Byte) {m : Memory} (hm : Memory.wf m) (a : Nat) {i : Nat}
    (hi : i < img.length) : Memory.read (loadImage m a img) (a + i) = img[i] := by
  induction img generalizing m a i with
  | nil => exact absurd hi (Nat.not_lt_zero i)
  | cons v rest ih =>
    cases i with
    | zero =>
      calc Memory.read (loadImage (Memory.write m a v) (a + 1) rest) a
        _ = Memory.read (Memory.write m a v) a :=
          read_loadImage_outside rest _ (.inl a.lt_succ_self)
        _ = v := Memory.read_write_same hm a v
    | succ i =>
      rw [show a + (i + 1) = a + 1 + i by omega]
      exact ih (Memory.write_wf hm a v) (a + 1) (Nat.lt_of_succ_lt_succ hi)

/-! ### The launch state -/

theorem launch_ok {p : Params} {img : List Byte} (h : img.length ≤ p.memSize) :
    launch p img = some { State.resetWith p with mem := loadImage [] 0 img } := if_pos h

theorem launch_none {p : Params} {img : List Byte} (h : p.memSize < img.length) :
    launch p img = none := if_neg (Nat.not_le_of_lt h)

/-- What a launch that answers a state has done. -/
theorem launch_some {p : Params} {img : List Byte} {s : State} (h : launch p img = some s) :
    img.length ≤ p.memSize ∧ s = { State.resetWith p with mem := loadImage [] 0 img } := by
  rcases Nat.lt_or_ge p.memSize img.length with hlong | hfits
  · rw [launch_none hlong] at h
    cases h
  · rw [launch_ok hfits] at h
    exact ⟨hfits, (Option.some.inj h).symm⟩

/-- Settles O10: reset memory is empty and reads 0, and the loader changes only the addresses of the
image. -/
theorem launchLoadsImage : Obligations.LaunchLoadsImage := by
  intro p img
  refine ⟨fun hfits => ⟨_, launch_ok hfits, fun i hi => ?_, fun i hlow hi => ?_, rfl⟩,
    launch_none⟩
  · rw [memRead_ok (Nat.lt_of_lt_of_le hi hfits)]
    have hread := read_loadImage_getElem img (resetWith_mem_wf p) 0 hi
    rw [Nat.zero_add] at hread
    exact congrArg Except.ok hread
  · rw [memRead_ok hi]
    exact congrArg Except.ok (read_loadImage_outside img [] (.inr (by omega)))

/-! ### The invariant along every run -/

/-- Reset meets the invariant, and the image changes only its clauses about memory; the error record
is empty. -/
theorem launch_inv {p : Params} (hp : p.Valid) {img : List Byte} {s : State}
    (h : launch p img = some s) : s.Inv := by
  obtain ⟨hfits, rfl⟩ := launch_some h
  have hreset := State.resetWith_inv hp
  exact
    { hreset with
      memWf := loadImage_wf img hreset.memWf 0
      memBound := loadImage_bound img hreset.memBound 0 ((Nat.zero_add _).trans_le hfits)
      errOpcode := fun _ _ he => by cases he }

theorem State.stopRequest_params (s : State) : s.stopRequest.params = s.params := by
  unfold State.stopRequest
  cases s.status <;> rfl

/-- A stop request turns RUN into HALT, and both go with an empty error record. -/
theorem State.Inv.stopRequest {s : State} (hs : s.Inv) : s.stopRequest.Inv := by
  by_cases hr : s.status = .run
  · rw [State.stopRequest_of_run hr]
    exact { hs with errFault := by simp [hs.err_eq_none hr] }
  · rwa [State.stopRequest_of_not_run hr]

/-- Settles O49: the invariant and the parameters hold of a launch state, and a tick and a stop
request keep them. -/
theorem reachableMeetsInvariant : Obligations.ReachableMeetsInvariant := by
  intro p s hp hreach
  induction hreach with
  | launched img s h =>
    obtain ⟨-, hs⟩ := launch_some h
    exact ⟨launch_inv hp h, congrArg State.params hs⟩
  | ticked s t _ h ih =>
    obtain ⟨hinv, hparams⟩ := ih
    exact ⟨stepKeepsInvariant s t hinv h, (parametersNeverChange s t h).1.trans hparams⟩
  | stopped s _ ih =>
    obtain ⟨hinv, hparams⟩ := ih
    exact ⟨hinv.stopRequest, s.stopRequest_params.trans hparams⟩

end Sys2Proof.Machine
